-- ==== Sys2Proof/Word.lean ====
section
/-! DEFINITION. The word types of the machine and the two zero extensions the rules use. -/

namespace Sys2Proof

/-- A byte: the width of a general register and of a memory cell (rules R5, R6). -/
abbrev Byte := BitVec 8

/-- A 16-bit word: the width of `PC`, `I`, a stack entry and an opcode word (rules R5, R6). -/
abbrev Word16 := BitVec 16

/-- The number of a general register, 0 to 15: every value of a nibble is legal (rules R20, R73). -/
abbrev Reg := Fin 16

/-- `zext_16` of a 12-bit address operand (rules R7, R73). -/
abbrev zextAddr (nnn : BitVec 12) : Word16 := nnn.setWidth 16

/-- `zext_16` of a byte (rule R7). -/
abbrev zextByte (b : Byte) : Word16 := b.setWidth 16

end Sys2Proof
end

