-- ==== Sys2Proof/Syntax.lean ====
section
/-! DEFINITION. The 35 instructions, one constructor per row of spec/opcode_table.json, in the
table's order, with the operands the formats of rule R72 give each. -/

namespace Sys2Proof

/-- An instruction of the base CHIP-8 set (rule R76). `SHR` and `SHL` keep their `Y` field, which is
decoded and ignored (rule R77). -/
inductive Instr where
  /-- `00E0` CLS -/
  | cls
  /-- `00EE` RET -/
  | ret
  /-- `0NNN` SYS -/
  | sys (nnn : BitVec 12)
  /-- `1NNN` JP -/
  | jp (nnn : BitVec 12)
  /-- `2NNN` CALL -/
  | call (nnn : BitVec 12)
  /-- `3XNN` SE_IMM -/
  | seImm (x : Reg) (nn : Byte)
  /-- `4XNN` SNE_IMM -/
  | sneImm (x : Reg) (nn : Byte)
  /-- `5XY0` SE_REG -/
  | seReg (x y : Reg)
  /-- `6XNN` LD_IMM -/
  | ldImm (x : Reg) (nn : Byte)
  /-- `7XNN` ADD_IMM -/
  | addImm (x : Reg) (nn : Byte)
  /-- `8XY0` LD_REG -/
  | ldReg (x y : Reg)
  /-- `8XY1` OR -/
  | orReg (x y : Reg)
  /-- `8XY2` AND -/
  | andReg (x y : Reg)
  /-- `8XY3` XOR -/
  | xorReg (x y : Reg)
  /-- `8XY4` ADD_REG -/
  | addReg (x y : Reg)
  /-- `8XY5` SUB -/
  | sub (x y : Reg)
  /-- `8XY6` SHR -/
  | shr (x y : Reg)
  /-- `8XY7` SUBN -/
  | subn (x y : Reg)
  /-- `8XYE` SHL -/
  | shl (x y : Reg)
  /-- `9XY0` SNE_REG -/
  | sneReg (x y : Reg)
  /-- `ANNN` LD_I -/
  | ldI (nnn : BitVec 12)
  /-- `BNNN` JP_V0 -/
  | jpV0 (nnn : BitVec 12)
  /-- `CXNN` RND -/
  | rnd (x : Reg) (nn : Byte)
  /-- `DXYN` DRW, `n` rows -/
  | drw (x y : Reg) (n : Fin 16)
  /-- `EX9E` SKP -/
  | skp (x : Reg)
  /-- `EXA1` SKNP -/
  | sknp (x : Reg)
  /-- `FX07` LD_VX_DT -/
  | ldVxDt (x : Reg)
  /-- `FX0A` LD_VX_K -/
  | ldVxK (x : Reg)
  /-- `FX15` LD_DT_VX -/
  | ldDtVx (x : Reg)
  /-- `FX18` LD_ST_VX -/
  | ldStVx (x : Reg)
  /-- `FX1E` ADD_I -/
  | addI (x : Reg)
  /-- `FX29` LD_F -/
  | ldF (x : Reg)
  /-- `FX33` LD_B -/
  | ldB (x : Reg)
  /-- `FX55` ST_REGS, registers 0 to `x` inclusive -/
  | stRegs (x : Reg)
  /-- `FX65` LD_REGS, registers 0 to `x` inclusive -/
  | ldRegs (x : Reg)
deriving DecidableEq, Repr

end Sys2Proof
end

