-- ==== Sys2Proof/WellFormed.lean ====
section
/-! DEFINITION. Which instruction terms are the meaning of a word. The operand types already hold
every register number and immediate to its field's range (rule R73), so the one check left is the
overlap of family 0. -/

namespace Sys2Proof

/-- The two words of family 0 that are not `SYS`: `00E0` and `00EE` are `CLS` and `RET` (rule R75). -/
def sysAddrFree (nnn : BitVec 12) : Bool := nnn != 0x0E0#12 && nnn != 0x0EE#12

/-- `i` is an instruction that some word encodes (rules R73, R75). -/
def Instr.wellFormed : Instr → Bool
  | .sys nnn => sysAddrFree nnn
  | .cls | .ret | .jp _ | .call _ | .seImm _ _ | .sneImm _ _ | .seReg _ _ | .ldImm _ _
  | .addImm _ _ | .ldReg _ _ | .orReg _ _ | .andReg _ _ | .xorReg _ _ | .addReg _ _ | .sub _ _
  | .shr _ _ | .subn _ _ | .shl _ _ | .sneReg _ _ | .ldI _ | .jpV0 _ | .rnd _ _ | .drw _ _ _
  | .skp _ | .sknp _ | .ldVxDt _ | .ldVxK _ | .ldDtVx _ | .ldStVx _ | .addI _ | .ldF _ | .ldB _
  | .stRegs _ | .ldRegs _ => true

end Sys2Proof
end

