-- ==== Sys2Proof/Decode.lean ====
section
/-! DEFINITION. The decoder, total on every word and every list of bytes (rules R70 to R82), and after
it the encoder, written from the same formats. -/

namespace Sys2Proof

/-- Why bytes are no instruction. The five families with invalid words are those of rule R79. -/
inductive Reject where
  /-- Fewer than two bytes: no whole opcode word (rule R70). -/
  | truncated
  /-- `5XYN` with `N` not 0 (rules R79, R80). -/
  | family5
  /-- `8XYN` with `N` in 8 to D or F (rules R77, R79). -/
  | family8
  /-- `9XYN` with `N` not 0 (rules R79, R80). -/
  | family9
  /-- `EXNN` with `NN` neither 9E nor A1 (rules R78, R79). -/
  | familyE
  /-- `FXNN` with `NN` none of the nine low bytes (rules R78, R79). -/
  | familyF
deriving DecidableEq, Repr

/-- `w[15:12]`, the opcode family (rule R71). -/
def opField (w : Word16) : Nat := (w.extractLsb' 12 4).toNat

/-- `w[11:8]`, the register number `X` (rule R71). -/
def xField (w : Word16) : Reg := (w.extractLsb' 8 4).toFin

/-- `w[7:4]`, the register number `Y` (rule R71). -/
def yField (w : Word16) : Reg := (w.extractLsb' 4 4).toFin

/-- `w[3:0]`, the secondary opcode or row count `N` (rule R71). -/
def nField (w : Word16) : Fin 16 := (w.extractLsb' 0 4).toFin

/-- `w[7:0]`, the immediate byte or secondary opcode `NN` (rule R71). -/
def nnField (w : Word16) : Byte := w.extractLsb' 0 8

/-- `w[11:0]`, the immediate address `NNN` (rule R71). -/
def nnnField (w : Word16) : BitVec 12 := w.extractLsb' 0 12

/-- Family 0: the exact words `00E0` and `00EE` take priority over `SYS` (rule R75). -/
def decode0 (w : Word16) : Instr :=
  if w = 0x00E0#16 then .cls else if w = 0x00EE#16 then .ret else .sys (nnnField w)

/-- Family 8, selected by `N` alone (rule R77). -/
def decode8 (x y : Reg) (n : Nat) : Except Reject Instr :=
  match n with
  | 0x0 => .ok (.ldReg x y)
  | 0x1 => .ok (.orReg x y)
  | 0x2 => .ok (.andReg x y)
  | 0x3 => .ok (.xorReg x y)
  | 0x4 => .ok (.addReg x y)
  | 0x5 => .ok (.sub x y)
  | 0x6 => .ok (.shr x y)
  | 0x7 => .ok (.subn x y)
  | 0xE => .ok (.shl x y)
  | _ => .error .family8

/-- Family E, selected by the whole low byte (rule R78). -/
def decodeE (x : Reg) (nn : Nat) : Except Reject Instr :=
  match nn with
  | 0x9E => .ok (.skp x)
  | 0xA1 => .ok (.sknp x)
  | _ => .error .familyE

/-- Family F, selected by the whole low byte (rule R78). -/
def decodeF (x : Reg) (nn : Nat) : Except Reject Instr :=
  match nn with
  | 0x07 => .ok (.ldVxDt x)
  | 0x0A => .ok (.ldVxK x)
  | 0x15 => .ok (.ldDtVx x)
  | 0x18 => .ok (.ldStVx x)
  | 0x1E => .ok (.addI x)
  | 0x29 => .ok (.ldF x)
  | 0x33 => .ok (.ldB x)
  | 0x55 => .ok (.stRegs x)
  | 0x65 => .ok (.ldRegs x)
  | _ => .error .familyF

/-- The decode rule over every 16-bit word (rule R74). -/
def decodeWord (w : Word16) : Except Reject Instr :=
  match opField w with
  | 0x0 => .ok (decode0 w)
  | 0x1 => .ok (.jp (nnnField w))
  | 0x2 => .ok (.call (nnnField w))
  | 0x3 => .ok (.seImm (xField w) (nnField w))
  | 0x4 => .ok (.sneImm (xField w) (nnField w))
  | 0x5 => if nField w = 0 then .ok (.seReg (xField w) (yField w)) else .error .family5
  | 0x6 => .ok (.ldImm (xField w) (nnField w))
  | 0x7 => .ok (.addImm (xField w) (nnField w))
  | 0x8 => decode8 (xField w) (yField w) (nField w).val
  | 0x9 => if nField w = 0 then .ok (.sneReg (xField w) (yField w)) else .error .family9
  | 0xA => .ok (.ldI (nnnField w))
  | 0xB => .ok (.jpV0 (nnnField w))
  | 0xC => .ok (.rnd (xField w) (nnField w))
  | 0xD => .ok (.drw (xField w) (yField w) (nField w))
  | 0xE => decodeE (xField w) (nnField w).toNat
  | _ => decodeF (xField w) (nnField w).toNat

/-- The opcode word of two bytes, the byte at the lower address first (rules R50, R70). -/
def wordOfBytes (hi lo : Byte) : Word16 := hi ++ lo

/-- The byte at the lower address, `w[15:8]` (rule R50). -/
def hiByte (w : Word16) : Byte := w.extractLsb' 8 8

/-- The byte at the higher address, `w[7:0]` (rule R50). -/
def loByte (w : Word16) : Byte := w.extractLsb' 0 8

/-- Decode the front of any list of bytes: the instruction and the bytes after its two, or the name of
the reason there is none (rules R70, R74). -/
def decode : List Byte → Except Reject (Instr × List Byte)
  | hi :: lo :: rest => (decodeWord (wordOfBytes hi lo)).map fun i => (i, rest)
  | _ => .error .truncated

/-- The instruction the decoder reads from a row's word as spec/opcode_table.json numbers its bits:
bits 15..8 are the byte at the lower address, bits 7..0 the other. -/
def decodeTableWord (nbits w : Nat) : Option Instr :=
  let word := BitVec.ofNat 16 (w % 2 ^ nbits)
  match decode [hiByte word, loByte word] with
  | .ok (i, _) => some i
  | .error _ => none

/-! ## The encoder -/

/-- Format `NNN` (rule R72). -/
def formatNNN (op : BitVec 4) (nnn : BitVec 12) : Word16 := op ++ nnn

/-- Format `XNN`, and `XKK` with the secondary opcode as its low byte (rule R72). -/
def formatXNN (op : BitVec 4) (x : Reg) (nn : Byte) : Word16 := op ++ (BitVec.ofFin x : BitVec 4) ++ nn

/-- Format `XYN` (rule R72). -/
def formatXYN (op : BitVec 4) (x y : Reg) (n : Fin 16) : Word16 :=
  op ++ (BitVec.ofFin x : BitVec 4) ++ (BitVec.ofFin y : BitVec 4) ++ (BitVec.ofFin n : BitVec 4)

/-- The opcode word of an instruction (rules R72, R76). -/
def encode : Instr → Word16
  | .cls => 0x00E0#16
  | .ret => 0x00EE#16
  | .sys nnn => formatNNN 0x0 nnn
  | .jp nnn => formatNNN 0x1 nnn
  | .call nnn => formatNNN 0x2 nnn
  | .seImm x nn => formatXNN 0x3 x nn
  | .sneImm x nn => formatXNN 0x4 x nn
  | .seReg x y => formatXYN 0x5 x y 0x0
  | .ldImm x nn => formatXNN 0x6 x nn
  | .addImm x nn => formatXNN 0x7 x nn
  | .ldReg x y => formatXYN 0x8 x y 0x0
  | .orReg x y => formatXYN 0x8 x y 0x1
  | .andReg x y => formatXYN 0x8 x y 0x2
  | .xorReg x y => formatXYN 0x8 x y 0x3
  | .addReg x y => formatXYN 0x8 x y 0x4
  | .sub x y => formatXYN 0x8 x y 0x5
  | .shr x y => formatXYN 0x8 x y 0x6
  | .subn x y => formatXYN 0x8 x y 0x7
  | .shl x y => formatXYN 0x8 x y 0xE
  | .sneReg x y => formatXYN 0x9 x y 0x0
  | .ldI nnn => formatNNN 0xA nnn
  | .jpV0 nnn => formatNNN 0xB nnn
  | .rnd x nn => formatXNN 0xC x nn
  | .drw x y n => formatXYN 0xD x y n
  | .skp x => formatXNN 0xE x 0x9E
  | .sknp x => formatXNN 0xE x 0xA1
  | .ldVxDt x => formatXNN 0xF x 0x07
  | .ldVxK x => formatXNN 0xF x 0x0A
  | .ldDtVx x => formatXNN 0xF x 0x15
  | .ldStVx x => formatXNN 0xF x 0x18
  | .addI x => formatXNN 0xF x 0x1E
  | .ldF x => formatXNN 0xF x 0x29
  | .ldB x => formatXNN 0xF x 0x33
  | .stRegs x => formatXNN 0xF x 0x55
  | .ldRegs x => formatXNN 0xF x 0x65

/-- The two bytes of an instruction as memory holds them, lower address first (rules R50, R70). -/
def encodeBytes (i : Instr) : List Byte := [hiByte (encode i), loByte (encode i)]

end Sys2Proof
end

