-- ==== Sys2Proof/Config.lean ====
section
/-! DEFINITION. The parameters of this hardware (rule R5) and the one free value, the random byte. -/

namespace Sys2Proof.Config

/-- `MEM_SIZE`: 4096 bytes of memory (rule R5). -/
abbrev memSize : Nat := 4096

/-- `STACK_CAPACITY`: 16 entries (rule R5, decision D3; log entry 3). -/
abbrev stackCapacity : Nat := 16

/-- `FONT_BASE` (rule R5, decision D1; log entry 1). -/
abbrev fontBase : Nat := 0x050

/-- `FONT_GLYPHS * GLYPH_BYTES`: 80 bytes of font (rule R5). -/
abbrev fontSize : Nat := 80

/-- `PROG_BASE`: the load address and the reset vector (rule R5, decision D2; log entry 2). -/
abbrev progBase : Nat := 0x200

/-- `MAX_ROM`: the longest ROM image LOAD accepts, 3584 bytes (rules R5, R202). -/
abbrev maxRom : Nat := memSize - progBase

/-- Glyphs 0 to 7 of `FONT_DATA`, five bytes each, top row first (rule R33, decision D4). -/
def fontLow : List (List Byte) :=
  [[0xF0, 0x90, 0x90, 0x90, 0xF0], [0x20, 0x60, 0x20, 0x20, 0x70],
   [0xF0, 0x10, 0xF0, 0x80, 0xF0], [0xF0, 0x10, 0xF0, 0x10, 0xF0],
   [0x90, 0x90, 0xF0, 0x10, 0x10], [0xF0, 0x80, 0xF0, 0x10, 0xF0],
   [0xF0, 0x80, 0xF0, 0x90, 0xF0], [0xF0, 0x10, 0x20, 0x40, 0x40]]

/-- Glyphs 8 to F of `FONT_DATA` (rule R33, decision D4). -/
def fontHigh : List (List Byte) :=
  [[0xF0, 0x90, 0xF0, 0x90, 0xF0], [0xF0, 0x90, 0xF0, 0x10, 0xF0],
   [0xF0, 0x90, 0xF0, 0x90, 0x90], [0xE0, 0x90, 0xE0, 0x90, 0xE0],
   [0xF0, 0x80, 0x80, 0x80, 0xF0], [0xE0, 0x90, 0x90, 0x90, 0xE0],
   [0xF0, 0x80, 0xF0, 0x80, 0xF0], [0xF0, 0x80, 0xF0, 0x80, 0x80]]

/-- `FONT_DATA`: the 80 bytes RESET puts at `FONT_BASE` (rule R33). UNVERIFIED: the spec gives them
from general knowledge (decision D4, log entry 4), so no obligation names a byte of it. -/
def fontData : List Byte := (fontLow ++ fontHigh).flatten

/-- The random bytes the host supplies, one for each `CXNN` executed: the `k`-th byte drawn is
`randByte k` (rules R132, R185, decision D19; log entry 5). A free value: it has no body, so nothing
is known of any byte, and what holds of it holds for every sequence of draws. -/
opaque randByte : Nat → Byte

end Sys2Proof.Config
end

