-- ==== Sys2Proof/Machine/State.lean ====
section
/-! DEFINITION. The whole state of the machine as plain data (spec/10_state.md), the reasons a step can
stop, and the state after RESET. -/

namespace Sys2Proof.Machine

/-- The fault causes of rule R170. A step that raises one goes on to a next state that has it latched
in `FAULT` (rule R176): none of them stops the model. -/
inductive Cause where
  /-- Code 1: the fetched word is no instruction (rule R171). -/
  | invalidOpcode
  /-- Code 2: `2NNN` with a full stack (rule R172). -/
  | stackOverflow
  /-- Code 3: `00EE` with an empty stack (rule R173). -/
  | stackUnderflow
  /-- Code 4: an effective address of 4096 or more (rule R174). -/
  | memOutOfBounds
  /-- Code 5: `EX9E` or `EXA1` with a key index above 15 (rule R175, decision D11). -/
  | keyIndexOutOfRange
deriving DecidableEq, Repr

/-- Why `step` stops: nothing an instruction does. -/
inductive Fault where
  /-- Raised by `step` alone, when `FAULT` is set, no ADVANCE is in progress and the host has no further
  transaction: a faulted machine runs no step and only RESET or LOAD would end that (rules R98, R179).
  Safe: the hardware would stay as it is for ever (log entry 11). -/
  | stopped (cause : Cause)
deriving DecidableEq, Repr

/-- Why an instruction has no meaning. -/
inductive Refusal where
  /-- Raised by an arm of `exec` for an instruction that has no meaning yet. Safe; no arm is left. -/
  | notModelled (mnemonic : String)
deriving DecidableEq, Repr

/-- `MEM`: the bytes that differ from the reset contents, by address, in the canonical form
`Memory.wf` (log entry 6). -/
abbrev Memory := List Host.Cell

/-- `FB`: `FB_H` = 32 rows of `FB_W` = 64 pixels, row 0 the top, column 0 the left (rules R5, R29; log
entry 22). -/
abbrev Framebuffer := Vector (Vector Bool 64) 32

/-- `K`: one flag for each hex key (rule R30). -/
abbrev KeyVector := Vector Bool 16

/-- A host transaction (rule R180). -/
inductive Transaction where
  /-- RESET (rule R200). -/
  | reset
  /-- LOAD(rom) (rules R201, R202). -/
  | load (rom : List Byte)
  /-- ADVANCE(n): `n` steps and then one tick (rule R94). -/
  | advance (n : Nat)
  /-- SET_KEYS(k) (rule R181). -/
  | setKeys (k : KeyVector)
deriving DecidableEq, Repr

/-- What ADVANCE or LOAD answers the host (rules R94, R184, R202). -/
inductive Answer where
  /-- `Ok`. -/
  | ok
  /-- `Error(code)`, of ADVANCE. -/
  | error (cause : Cause)
  /-- `LoadError`, of LOAD. -/
  | loadError
deriving DecidableEq, Repr

/-- The state tuple of spec/10_state.md, then what stands for the host and for the transaction in
progress (log entries 5, 9, 13). -/
structure State where
  /-- `V[0]` to `V[15]` (rule R20). -/
  v : Vector Byte 16
  /-- `I` (rule R25). -/
  i : Word16
  /-- `PC` (rule R23). -/
  pc : Word16
  /-- `SP`, the number of live stack entries, 0 to 16 (rule R26). -/
  sp : Fin 17
  /-- `STK[0]` to `STK[15]` (rule R26). -/
  stk : Vector Word16 16
  /-- `DT` (rule R27). -/
  dt : Byte
  /-- `ST` (rule R28). -/
  st : Byte
  /-- `FB` (rule R29). -/
  fb : Framebuffer
  /-- `K` (rule R30). -/
  keys : KeyVector
  /-- `FAULT`, with code 0 written `none` (rule R31). -/
  fault : Option Cause
  /-- `MEM` (rule R32). -/
  mem : Memory
  /-- The model's own: how many random bytes have been drawn (log entry 5). -/
  draws : Nat
  /-- The ADVANCE in progress: how many of its steps are still to run (rule R94; log entry 9). -/
  adv : Option Nat
  /-- The transactions the host has still to issue, first one first (rules R186, R216; log entry 9). -/
  script : List Transaction
  /-- The last answer of ADVANCE or LOAD (rule R184; log entry 13). -/
  result : Option Answer
deriving DecidableEq, Repr

/-- The state after RESET (rules R34, R200). No program is in it and the host has asked for nothing: a
program comes to run by LOAD and ADVANCE transactions (log entry 9). -/
def State.reset : State where
  v := Vector.replicate 16 0
  i := 0
  pc := BitVec.ofNat 16 Config.progBase
  sp := 0
  stk := Vector.replicate 16 0
  dt := 0
  st := 0
  fb := Vector.replicate 32 (Vector.replicate 64 false)
  keys := Vector.replicate 16 false
  fault := none
  mem := []
  draws := 0
  adv := none
  script := []
  result := none

end Sys2Proof.Machine
end

