-- ==== Sys2Proof/Machine/Memory.lean ====
section
/-! DEFINITION. Reading and writing bytes of `MEM` (spec/20_memory.md). The access width is always one
byte (rule R53); the bounds check is with the operations that form addresses (Machine/Operands.lean). -/

namespace Sys2Proof.Machine

/-- What an unlisted address reads as, the reset contents: `FONT_DATA` from `FONT_BASE` on, and zero
everywhere else (rules R32, R34, R54). -/
def Memory.background (a : Nat) : Byte :=
  if Config.fontBase ≤ a ∧ a < Config.fontBase + Config.fontSize then
    Config.fontData.getD (a - Config.fontBase) 0
  else 0

/-- `MEM[a]` (rule R7). -/
def Memory.read : Memory → Nat → Byte
  | [], a => Memory.background a
  | (b, v) :: rest, a => if b = a then v else Memory.read rest a

/-- Put a cell into its place among rising addresses. -/
def Memory.insert (c : Host.Cell) : Memory → Memory
  | [] => [c]
  | d :: rest => if c.1 < d.1 then c :: d :: rest else d :: Memory.insert c rest

/-- The cells of every other address. -/
def Memory.erase (m : Memory) (a : Nat) : Memory := m.filter fun c => c.1 != a

/-- `MEM[a] <- v` (rule R7), keeping the canonical form. -/
def Memory.write (m : Memory) (a : Nat) (v : Byte) : Memory :=
  if v = Memory.background a then m.erase a else Memory.insert (a, v) (m.erase a)

/-- Write bytes at ascending addresses from `a` on. -/
def Memory.writeBytes (m : Memory) (a : Nat) : List Byte → Memory
  | [] => m
  | b :: bs => Memory.writeBytes (m.write a b) (a + 1) bs

/-- The `n` bytes at ascending addresses from `a` on. -/
def Memory.readBytes (m : Memory) (a n : Nat) : List Byte := (List.range n).map fun k => m.read (a + k)

/-- The canonical form: addresses rising and below 4096, and no cell equal to what its address reads as
unlisted. -/
abbrev Memory.wf (m : Memory) : Prop :=
  m.Pairwise (fun c d => c.1 < d.1) ∧
    ∀ c ∈ m, c.1 < Config.memSize ∧ c.2 ≠ Memory.background c.1

end Sys2Proof.Machine
end

