-- ==== Sys2Proof/Machine/Operands.lean ====
section
/-! DEFINITION. The operand forms: registers, immediates and the one addressing mode `I + k` (rules R71,
R73, R146), with the bounds check of rule R55. -/

namespace Sys2Proof.Machine

/-- `V[x]`, read (rules R7, R20). -/
abbrev State.reg (s : State) (x : Reg) : Byte := s.v[x]

/-- The flag register `V[0xF]` (rule R22). -/
abbrev flagReg : Reg := 15

/-- The effective address `I + k`, a natural number that is never reduced (rules R55, R146). -/
abbrev State.indexAddr (s : State) (k : Nat) : Nat := s.i.toNat + k

/-- An address exists iff it is below 4096 (rule R55). -/
def addrExists (a : Nat) : Bool := decide (a < Config.memSize)

/-- All `n` addresses `I` to `I + n - 1` exist; the highest decides, and no address is asked of when `n`
is 0 (rules R55, R151). -/
def State.indexBlockExists (s : State) (n : Nat) : Bool :=
  match n with
  | 0 => true
  | k + 1 => addrExists (s.indexAddr k)

/-- `MemRead(a, 1)`: `none` stands for `raise MemOutOfBounds` (rule R7). -/
def State.memRead (s : State) (a : Nat) : Option Byte :=
  if addrExists a then some (s.mem.read a) else none

/-- The opcode word at `PC`, two checked reads, the lower address in the high byte; `PC + 1` does not wrap
(rules R50, R90). -/
def State.fetchWord (s : State) : Option Word16 := do
  let hi ← s.memRead s.pc.toNat
  let lo ← s.memRead (s.pc.toNat + 1)
  return wordOfBytes hi lo

/-- The target `NNN` of `1NNN` and `2NNN` (rules R102, R103). -/
def jumpTarget (nnn : BitVec 12) : Word16 := zextAddr nnn

/-- The target `NNN + V[0]` of `BNNN` (rule R108). -/
def State.offsetTarget (s : State) (nnn : BitVec 12) : Word16 := zextAddr nnn + zextByte (s.reg 0)

/-- The address of the glyph `V[x]` names, `FONT_BASE + 5 * V[x]`, all eight bits used (rule R142). -/
def State.glyphAddr (s : State) (x : Reg) : Word16 :=
  BitVec.ofNat 16 (Config.fontBase + 5 * (s.reg x).toNat)

/-- The state of key `k`, or `none` when there is no such key (rules R160, R161). -/
def State.key (s : State) (k : Byte) : Option Bool :=
  if h : k.toNat < 16 then some s.keys[k.toNat] else none

/-- The least pressed key, if any is pressed (rule R162). -/
def leastKey (keys : KeyVector) : Option (Fin 16) := (List.finRange 16).find? fun k => keys[k]

end Sys2Proof.Machine
end

