-- ==== Sys2Proof/Machine/Flags.lean ====
section
/-! DEFINITION. The values of the flag `V[0xF]` (rule R22), each computed from the operands as they were
before the instruction (rule R131). -/

namespace Sys2Proof.Machine

/-- A flag is 0x00 or 0x01 (rule R22). -/
def flagByte (b : Bool) : Byte := if b then 1 else 0

/-- `8XY4`: the unsigned sum exceeds 255 (rule R126). -/
def carryFlag (a b : Byte) : Byte := flagByte (decide (255 < a.toNat + b.toNat))

/-- `8XY5` and, with the operands exchanged, `8XY7`: no borrow in `a - b` (rules R127, R129). -/
def noBorrowFlag (a b : Byte) : Byte := flagByte (decide (b.toNat ≤ a.toNat))

/-- `8XY6`: bit 0 before the shift (rule R128). -/
def lowBitFlag (a : Byte) : Byte := flagByte (a.getLsbD 0)

/-- `8XYE`: bit 7 before the shift (rule R130). -/
def highBitFlag (a : Byte) : Byte := flagByte (a.getLsbD 7)

/-- `DXYN`: some pixel went from set to clear (rule R151). -/
def collisionFlag (c : Bool) : Byte := flagByte c

end Sys2Proof.Machine
end

