-- ==== Sys2Proof/Machine/Ops.lean ====
section
/-! DEFINITION. The shared operations on the state: register writes, the moves of `PC`, the call stack,
fault entry, the random draw and the timer tick. -/

namespace Sys2Proof.Machine

/-- What an instruction or a step comes to. -/
abbrev Outcome := Host.Outcome State Fault Refusal

/-! ## Writing one piece of state -/

/-- `V[x] <- b` (rule R7). -/
def State.setReg (s : State) (x : Reg) (b : Byte) : State := { s with v := s.v.set x b }

/-- All general registers at once, for `FX65`. -/
def State.setRegs (s : State) (v : Vector Byte 16) : State := { s with v := v }

/-- `I <- a` (rule R25). -/
def State.setI (s : State) (a : Word16) : State := { s with i := a }

/-- `DT <- b` (rule R27). -/
def State.setDt (s : State) (b : Byte) : State := { s with dt := b }

/-- `ST <- b` (rule R28). -/
def State.setSt (s : State) (b : Byte) : State := { s with st := b }

/-- The framebuffer, for `00E0` and `DXYN` (rule R29). -/
def State.setFb (s : State) (fb : Framebuffer) : State := { s with fb := fb }

/-- `PC <- a` (rule R23). -/
def State.goto (s : State) (a : Word16) : State := { s with pc := a }

/-- Store bytes at `I`, `I + 1` and so on (rules R143, R144). The caller has checked the addresses. -/
def State.storeAtI (s : State) (bs : List Byte) : State :=
  { s with mem := s.mem.writeBytes (s.indexAddr 0) bs }

/-! ## Moves of `PC` -/

/-- `PC <- (PC + 2) mod 65536`. -/
def State.sequential (s : State) : State := s.goto (s.pc + 2)

/-- A skip: `PC + 4` when the condition holds, else `PC + 2` (rules R104 to R107, R109). -/
def State.skipIf (s : State) (c : Bool) : State := s.goto (if c then s.pc + 4 else s.pc + 2)

/-! ## Results with a flag -/

/-- Write the result to `V[x]` and then the flag to `V[0xF]`, in this order, and go on (rule R131). -/
def State.resultThenFlag (s : State) (x : Reg) (result flag : Byte) : State :=
  ((s.setReg x result).setReg flagReg flag).sequential

/-! ## The call stack (rule R26) -/

/-- `STK[SP] <- a; SP <- SP + 1`, or `none` at capacity (rule R103). -/
def State.push (s : State) (a : Word16) : Option State :=
  if h : s.sp.val < Config.stackCapacity then
    some { s with stk := s.stk.set s.sp.val a, sp := ⟨s.sp.val + 1, Nat.succ_lt_succ h⟩ }
  else none

/-- `SP <- SP - 1` and the entry then at `STK[SP]`, or `none` when empty (rule R100). The entry stays in
`STK`. -/
def State.pop (s : State) : Option (Word16 × State) :=
  if h : s.sp.val = 0 then none
  else some (s.stk[s.sp.val - 1], { s with sp := ⟨s.sp.val - 1, by omega⟩ })

/-! ## Faults -/

/-- The three bits of `FAULT` (rules R31, R170). -/
def Cause.code : Cause → BitVec 3
  | .invalidOpcode => 1
  | .stackOverflow => 2
  | .stackUnderflow => 3
  | .memOutOfBounds => 4
  | .keyIndexOutOfRange => 5

/-- The end of the ADVANCE in progress, with its answer (rules R94, R96). -/
def State.endAdvance (s : State) (a : Answer) : State := { s with adv := none, result := some a }

/-- Fault entry, the one shared operation of every fault: `FAULT` takes the cause, the ADVANCE in progress
answers `Error` at once, and nothing else is written: `PC` stays at the faulting instruction (rule R176).
There is no return from it beside RESET and LOAD (rule R179; Machine/HostOps.lean). -/
def State.raise (s : State) (c : Cause) : State := { s with fault := some c }.endAdvance (.error c)

/-! ## The random byte and the timers -/

/-- `rand()`: the next free byte, and the state with one more byte drawn (rule R132). -/
def State.rand (s : State) : Byte × State := (Config.randByte s.draws, { s with draws := s.draws + 1 })

/-- One timer, ticked: down by one, and never below zero (rule R95). -/
def tickTimer (t : Byte) : Byte := if t = 0 then 0 else t - 1

/-- The timer tick, which touches `DT` and `ST` only (rule R95). -/
def State.tick (s : State) : State := { s with dt := tickTimer s.dt, st := tickTimer s.st }

end Sys2Proof.Machine
end

