-- ==== Sys2Proof/Machine/Alu.lean ====
section
/-! DEFINITION. Register load, arithmetic, logic, shifts and the random byte (spec/42_alu.md). -/

namespace Sys2Proof.Machine

/-- `6XNN` (rule R120). -/
def execLdImm (x : Reg) (nn : Byte) (s : State) : Outcome := .next (s.setReg x nn).sequential

/-- `7XNN`: wraps, and writes no flag (rule R121). -/
def execAddImm (x : Reg) (nn : Byte) (s : State) : Outcome :=
  .next (s.setReg x (s.reg x + nn)).sequential

/-- `8XY0` (rule R122). -/
def execLdReg (x y : Reg) (s : State) : Outcome := .next (s.setReg x (s.reg y)).sequential

/-- `8XY1`: no flag (rule R123). -/
def execOr (x y : Reg) (s : State) : Outcome := .next (s.setReg x (s.reg x ||| s.reg y)).sequential

/-- `8XY2`: no flag (rule R124). -/
def execAnd (x y : Reg) (s : State) : Outcome := .next (s.setReg x (s.reg x &&& s.reg y)).sequential

/-- `8XY3`: no flag (rule R125). -/
def execXor (x y : Reg) (s : State) : Outcome := .next (s.setReg x (s.reg x ^^^ s.reg y)).sequential

/-- `8XY4` (rule R126). -/
def execAddReg (x y : Reg) (s : State) : Outcome :=
  .next (s.resultThenFlag x (s.reg x + s.reg y) (carryFlag (s.reg x) (s.reg y)))

/-- `8XY5` (rule R127). -/
def execSub (x y : Reg) (s : State) : Outcome :=
  .next (s.resultThenFlag x (s.reg x - s.reg y) (noBorrowFlag (s.reg x) (s.reg y)))

/-- `8XY6`: `V[y]` is not read (rule R128). -/
def execShr (x _y : Reg) (s : State) : Outcome :=
  .next (s.resultThenFlag x (s.reg x >>> 1) (lowBitFlag (s.reg x)))

/-- `8XY7` (rule R129). -/
def execSubn (x y : Reg) (s : State) : Outcome :=
  .next (s.resultThenFlag x (s.reg y - s.reg x) (noBorrowFlag (s.reg y) (s.reg x)))

/-- `8XYE`: `V[y]` is not read (rule R130). -/
def execShl (x _y : Reg) (s : State) : Outcome :=
  .next (s.resultThenFlag x (s.reg x <<< 1) (highBitFlag (s.reg x)))

/-- `CXNN`: one fresh byte, masked (rule R132). -/
def execRnd (x : Reg) (nn : Byte) (s : State) : Outcome :=
  .next ((s.rand.2.setReg x (s.rand.1 &&& nn)).sequential)

end Sys2Proof.Machine
end

