-- ==== Sys2Proof/Machine/ControlFlow.lean ====
section
/-! DEFINITION. Return, the no-op call, jumps, call and the register skips (spec/41_control_flow.md). -/

namespace Sys2Proof.Machine

/-- `00EE`: the popped entry is the address of the call, so `PC` goes two past it (rule R100). -/
def execRet (s : State) : Outcome :=
  match s.pop with
  | none => .next (s.raise .stackUnderflow)
  | some (a, t) => .next (t.goto (a + 2))

/-- `0NNN`: a no-op (rule R101). -/
def execSys (_nnn : BitVec 12) (s : State) : Outcome := .next s.sequential

/-- `1NNN` (rule R102). -/
def execJp (nnn : BitVec 12) (s : State) : Outcome := .next (s.goto (jumpTarget nnn))

/-- `2NNN`: pushes the address of the call itself (rule R103). -/
def execCall (nnn : BitVec 12) (s : State) : Outcome :=
  match s.push s.pc with
  | none => .next (s.raise .stackOverflow)
  | some t => .next (t.goto (jumpTarget nnn))

/-- `3XNN` (rule R104). -/
def execSeImm (x : Reg) (nn : Byte) (s : State) : Outcome := .next (s.skipIf (s.reg x == nn))

/-- `4XNN` (rule R105). -/
def execSneImm (x : Reg) (nn : Byte) (s : State) : Outcome := .next (s.skipIf (s.reg x != nn))

/-- `5XY0` (rule R106). -/
def execSeReg (x y : Reg) (s : State) : Outcome := .next (s.skipIf (s.reg x == s.reg y))

/-- `9XY0` (rule R107). -/
def execSneReg (x y : Reg) (s : State) : Outcome := .next (s.skipIf (s.reg x != s.reg y))

/-- `BNNN`: the offset is always `V[0]` (rule R108). -/
def execJpV0 (nnn : BitVec 12) (s : State) : Outcome := .next (s.goto (s.offsetTarget nnn))

end Sys2Proof.Machine
end

