-- ==== Sys2Proof/Machine/Display.lean ====
section
/-! DEFINITION. The display: the full clear and the exclusive-or sprite draw (spec/44_display.md). -/

namespace Sys2Proof.Machine

/-- `FB[y][x]`, for a position on the display (rule R29). -/
def Framebuffer.pixel (fb : Framebuffer) (y : Fin 32) (x : Fin 64) : Bool := fb[y][x]

/-- Every pixel 0 (rule R150). -/
def Framebuffer.clear : Framebuffer := Vector.replicate 32 (Vector.replicate 64 false)

/-- The framebuffer in the middle of a draw, and whether a pixel has gone from set to clear so far. -/
abbrev Drawing := Framebuffer × Bool

/-- Flip the pixel at column `px` and row `py`, and note a collision if it was set. A position off the
display is left out: no pixel and no collision (rules R151, R153, decision D8; log entry 15). -/
def drawPixel (d : Drawing) (px py : Nat) : Drawing :=
  if h : px < 64 ∧ py < 32 then
    (d.1.set py (d.1[py].set px (!d.1[py][px])), d.2 || d.1[py][px])
  else d

/-- One sprite row: bit `7 - c` of the byte is column offset `c` (rule R152). -/
def drawRow (d : Drawing) (b : Byte) (x0 py : Nat) : Drawing :=
  (List.range 8).foldl (fun e c => if b.getLsbD (7 - c) then drawPixel e (x0 + c) py else e) d

/-- The rows of a sprite, the first byte the top row (rules R151, R152). -/
def drawSprite (d : Drawing) (x0 : Nat) : List Byte → Nat → Drawing
  | [], _ => d
  | b :: bs, py => drawSprite (drawRow d b x0 py) x0 bs (py + 1)

/-- `00E0`: no flag (rule R150). -/
def execCls (s : State) : Outcome := .next (s.setFb Framebuffer.clear).sequential

/-- The draw of `DXYN` at the coordinates `V[x]`, `V[y]`, from the `n` bytes at `I` (rule R151). -/
def State.spriteDrawn (s : State) (x y : Reg) (n : Nat) : Drawing :=
  drawSprite (s.fb, false) (s.reg x).toNat (s.mem.readBytes (s.indexAddr 0) n) (s.reg y).toNat

/-- `DXYN`: all `n` addresses are checked first, and with `n = 0` there is none (rule R151, decision D9;
log entry 15). The flag is the last write. -/
def execDrw (x y : Reg) (n : Fin 16) (s : State) : Outcome :=
  if s.indexBlockExists n.val then
    .next (((s.setFb (s.spriteDrawn x y n.val).1).setReg flagReg
      (collisionFlag (s.spriteDrawn x y n.val).2)).sequential)
  else .next (s.raise .memOutOfBounds)

end Sys2Proof.Machine
end

