-- ==== Sys2Proof/Machine/IndexMemory.lean ====
section
/-! DEFINITION. The index register and the loads and stores through it (spec/43_index_memory.md). -/

namespace Sys2Proof.Machine

/-- The three decimal digits of a byte, hundreds first (rule R143). -/
def bcdDigits (b : Byte) : List Byte :=
  [BitVec.ofNat 8 (b.toNat / 100), BitVec.ofNat 8 (b.toNat / 10 % 10), BitVec.ofNat 8 (b.toNat % 10)]

/-- `V[0]` to `V[x]`, in ascending order (rule R144). -/
def State.regsUpTo (s : State) (x : Reg) : List Byte := s.v.toList.take (x.val + 1)

/-- The registers with `V[0]` to `V[x]` loaded from `I` on (rule R145). -/
def State.regsLoaded (s : State) (x : Reg) : Vector Byte 16 :=
  Vector.ofFn fun j => if j ≤ x then s.mem.read (s.indexAddr j.val) else s.v[j]

/-- `ANNN` (rule R140). -/
def execLdI (nnn : BitVec 12) (s : State) : Outcome := .next (s.setI (zextAddr nnn)).sequential

/-- `FX1E`: wraps at 65536, and writes no flag (rule R141). -/
def execAddI (x : Reg) (s : State) : Outcome := .next (s.setI (s.i + zextByte (s.reg x))).sequential

/-- `FX29` (rule R142). -/
def execLdF (x : Reg) (s : State) : Outcome := .next (s.setI (s.glyphAddr x)).sequential

/-- `FX33` (rule R143). -/
def execLdB (x : Reg) (s : State) : Outcome :=
  if s.indexBlockExists 3 then .next (s.storeAtI (bcdDigits (s.reg x))).sequential
  else .next (s.raise .memOutOfBounds)

/-- `FX55`: `I` keeps its value (rule R144). -/
def execStRegs (x : Reg) (s : State) : Outcome :=
  if s.indexBlockExists (x.val + 1) then .next (s.storeAtI (s.regsUpTo x)).sequential
  else .next (s.raise .memOutOfBounds)

/-- `FX65`: `I` keeps its value (rule R145). -/
def execLdRegs (x : Reg) (s : State) : Outcome :=
  if s.indexBlockExists (x.val + 1) then .next (s.setRegs (s.regsLoaded x)).sequential
  else .next (s.raise .memOutOfBounds)

end Sys2Proof.Machine
end

