-- ==== Sys2Proof/Machine/KeypadTimers.lean ====
section
/-! DEFINITION. The key skips, the key wait and the timers (spec/45_keypad_timers.md). -/

namespace Sys2Proof.Machine

/-- `EX9E` (rule R160; log entry 17 for an index above 15). -/
def execSkp (x : Reg) (s : State) : Outcome :=
  match s.key (s.reg x) with
  | none => .next (s.raise .keyIndexOutOfRange)
  | some pressed => .next (s.skipIf pressed)

/-- `EXA1` (rule R161; log entry 17 for an index above 15). -/
def execSknp (x : Reg) (s : State) : Outcome :=
  match s.key (s.reg x) with
  | none => .next (s.raise .keyIndexOutOfRange)
  | some pressed => .next (s.skipIf !pressed)

/-- `FX07` (rule R163). -/
def execLdVxDt (x : Reg) (s : State) : Outcome := .next (s.setReg x s.dt).sequential

/-- `FX0A`: with no key pressed the step changes nothing, `PC` included (rule R162). -/
def execLdVxK (x : Reg) (s : State) : Outcome :=
  match leastKey s.keys with
  | none => .next s
  | some k => .next (s.setReg x (BitVec.ofNat 8 k.val)).sequential

/-- `FX15` (rule R164). -/
def execLdDtVx (x : Reg) (s : State) : Outcome := .next (s.setDt (s.reg x)).sequential

/-- `FX18` (rule R165). -/
def execLdStVx (x : Reg) (s : State) : Outcome := .next (s.setSt (s.reg x)).sequential

end Sys2Proof.Machine
end

