-- ==== Sys2Proof/Machine/HostOps.lean ====
section
/-! DEFINITION. The host's transactions and the outputs it reads (rules R180 to R184, R200 to R202). -/

namespace Sys2Proof.Machine

/-- RESET: every piece of the machine's state takes its reset value, whatever it held (rules R34, R200).
What stands for the host, `draws`, `script` and `result`, is not the machine's and stays (log entry 9);
no transaction overlaps another, so no ADVANCE is in progress after it (rule R180). -/
def State.doReset (s : State) : State :=
  { State.reset with draws := s.draws, script := s.script, result := s.result }

/-- LOAD(rom): RESET and then the bytes at `PROG_BASE`, or `LoadError` and no change when the image is
too long (rules R201, R202; log entry 14). -/
def State.doLoad (s : State) (rom : List Byte) : State :=
  if rom.length ≤ Config.maxRom then
    { s.doReset with mem := s.doReset.mem.writeBytes Config.progBase rom, result := some .ok }
  else { s with result := some .loadError }

/-- The start of ADVANCE(n): a faulted machine answers the same error again and nothing changes (rules
R94, R97). -/
def State.beginAdvance (s : State) (n : Nat) : State :=
  match s.fault with
  | some c => s.endAdvance (.error c)
  | none => { s with adv := some n }

/-- SET_KEYS(k): all 16 flags at once, in the faulted condition too (rule R181). -/
def State.doSetKeys (s : State) (k : KeyVector) : State := { s with keys := k }

/-- Carry out a transaction; of ADVANCE, its start (rule R180). -/
def State.perform (s : State) : Transaction → State
  | .reset => s.doReset
  | .load rom => s.doLoad rom
  | .advance n => s.beginAdvance n
  | .setKeys k => s.doSetKeys k

/-- The output `TONE` (rules R28, R183). -/
def State.tone (s : State) : Bool := s.st != 0

/-- The output `FAULT`, three bits (rules R31, R184). -/
def State.faultCode (s : State) : BitVec 3 :=
  match s.fault with
  | none => 0
  | some c => c.code

/-- The output `FB` as the host reads it, flattened with index `y * 64 + x` (rules R29, R182). -/
def State.fbFlat (s : State) : List Bool := s.fb.toList.flatMap fun row => row.toList

end Sys2Proof.Machine
end

