-- ==== Sys2Proof/Machine/Interpreter.lean ====
section
/-! DEFINITION. One step of the interpreter FSM: fetch, decode, execute (spec/40_fsm_step.md). -/

namespace Sys2Proof.Machine

/-- One fetch, decode and execute. A fault of the fetch comes before one of the decode, and that before
one of the instruction (rules R90 to R93, R177). -/
def interpret (s : State) : Outcome :=
  match s.fetchWord with
  | none => .next (s.raise .memOutOfBounds)
  | some w =>
    match decodeWord w with
    | .error _ => .next (s.raise .invalidOpcode)
    | .ok i => exec i s

/-- One of the steps of the ADVANCE in progress is used up (rule R94). -/
def State.spendStep (s : State) : State := { s with adv := s.adv.map (· - 1) }

/-- An ADVANCE in progress with `n` steps left. One step of it runs; after the last one the tick ends it
with `Ok`; a machine that is faulted runs no step and has no tick (rules R94 to R97). -/
def advanceStep (s : State) (n : Nat) : Outcome :=
  match s.fault with
  | some c => .next (s.endAdvance (.error c))
  | none =>
    match n with
    | 0 => .next (s.tick.endAdvance .ok)
    | _ + 1 => interpret s.spendStep

/-- No ADVANCE in progress: the host's next transaction. With none to come the machine stays as it is,
idle (rule R98), and a faulted one has stopped (rule R179; log entry 11). -/
def hostStep (s : State) : Outcome :=
  match s.script with
  | t :: rest => .next (({ s with script := rest } : State).perform t)
  | [] =>
    match s.fault with
    | some c => .fault (.stopped c)
    | none => .next s

/-- Store an opcode word at the fetch address, high byte first (rule R50). -/
def State.placeWord (s : State) (w : Word16) : State :=
  { s with mem := s.mem.writeBytes s.pc.toNat [hiByte w, loByte w] }

/-- Ready to run a step: not faulted, `PC` at two addresses that exist, and an ADVANCE in progress with a
step left (log entry 29). -/
def State.readyToStep (s : State) : State :=
  { s with
    fault := none
    pc := if s.pc.toNat + 1 < Config.memSize then s.pc else BitVec.ofNat 16 Config.progBase
    adv := some (max 1 (s.adv.getD 1)) }

end Sys2Proof.Machine
end

