-- ==== Sys2Proof/Machine/Step.lean ====
section
/-! DEFINITION. The step of the whole block: a step of the ADVANCE in progress, or else the host's next
transaction (log entries 9, 10). -/

namespace Sys2Proof.Machine

/-- One step: of the ADVANCE in progress (rule R94), or the host's next transaction (rule R180). -/
def step (s : State) : Host.Outcome State Fault Refusal :=
  match s.adv with
  | some n => advanceStep s n
  | none => hostStep s

/-- `s` with the table word `w` stored where the step fetches next, and ready to run it (log entry 29).
Every instruction is one 16-bit word, so the bits above `nbits` are 0 (rule R70). -/
def State.withFetchWord (s : State) (nbits w : Nat) : State :=
  s.readyToStep.placeWord (BitVec.ofNat 16 (w % 2 ^ nbits))

end Sys2Proof.Machine
end

