-- ==== Sys2Proof/Laws/Decode.lean ====
section
/-! SUPPORT. The fields of a word put together by a format are the fields that went in; a word is its two
bytes; and a word is put together from its own fields. -/

namespace Sys2Proof

/-! ## Slices of a concatenation -/

theorem slice_high {v w start len : Nat} (a : BitVec v) (b : BitVec w) (h : w ≤ start) :
    (a ++ b).extractLsb' start len = a.extractLsb' (start - w) len :=
  BitVec.extractLsb'_append_eq_of_le h

theorem slice_low {v w start len : Nat} (a : BitVec v) (b : BitVec w) (h : start + len ≤ w) :
    (a ++ b).extractLsb' start len = b.extractLsb' start len :=
  BitVec.extractLsb'_append_eq_of_add_le h

/-! ## Format `NNN` -/

@[simp] theorem opField_formatNNN (op : BitVec 4) (nnn : BitVec 12) :
    opField (formatNNN op nnn) = op.toNat := by
  rw [opField, formatNNN, slice_high _ _ (by decide), BitVec.extractLsb'_eq_self]

@[simp] theorem nnnField_formatNNN (op : BitVec 4) (nnn : BitVec 12) :
    nnnField (formatNNN op nnn) = nnn := by
  rw [nnnField, formatNNN, slice_low _ _ (by decide), BitVec.extractLsb'_eq_self]

/-- Words of one family and format `NNN` are equal only with equal addresses. -/
theorem formatNNN_inj (op : BitVec 4) (a b : BitVec 12) : formatNNN op a = formatNNN op b ↔ a = b :=
  ⟨fun h => by rw [← nnnField_formatNNN op a, h, nnnField_formatNNN], fun h => h ▸ rfl⟩

/-! ## Format `XNN` -/

@[simp] theorem opField_formatXNN (op : BitVec 4) (x : Reg) (nn : Byte) :
    opField (formatXNN op x nn) = op.toNat := by
  rw [opField, formatXNN, slice_high _ _ (by decide), slice_high _ _ (by decide), BitVec.extractLsb'_eq_self]

@[simp] theorem xField_formatXNN (op : BitVec 4) (x : Reg) (nn : Byte) :
    xField (formatXNN op x nn) = x := by
  rw [xField, formatXNN, slice_high _ _ (by decide), slice_low _ _ (by decide), BitVec.extractLsb'_eq_self]

@[simp] theorem nnField_formatXNN (op : BitVec 4) (x : Reg) (nn : Byte) :
    nnField (formatXNN op x nn) = nn := by
  rw [nnField, formatXNN, slice_low _ _ (by decide), BitVec.extractLsb'_eq_self]

/-! ## Format `XYN` -/

@[simp] theorem opField_formatXYN (op : BitVec 4) (x y : Reg) (n : Fin 16) :
    opField (formatXYN op x y n) = op.toNat := by
  rw [opField, formatXYN, slice_high _ _ (by decide), slice_high _ _ (by decide),
    slice_high _ _ (by decide), BitVec.extractLsb'_eq_self]

@[simp] theorem xField_formatXYN (op : BitVec 4) (x y : Reg) (n : Fin 16) :
    xField (formatXYN op x y n) = x := by
  rw [xField, formatXYN, slice_high _ _ (by decide), slice_high _ _ (by decide),
    slice_low _ _ (by decide), BitVec.extractLsb'_eq_self]

@[simp] theorem yField_formatXYN (op : BitVec 4) (x y : Reg) (n : Fin 16) :
    yField (formatXYN op x y n) = y := by
  rw [yField, formatXYN, slice_high _ _ (by decide), slice_low _ _ (by decide),
    BitVec.extractLsb'_eq_self]

@[simp] theorem nField_formatXYN (op : BitVec 4) (x y : Reg) (n : Fin 16) :
    nField (formatXYN op x y n) = n := by
  rw [nField, formatXYN, slice_low _ _ (by decide), BitVec.extractLsb'_eq_self]

/-! ## Words and their bytes -/

@[simp] theorem wordOfBytes_hi_lo (w : Word16) : wordOfBytes (hiByte w) (loByte w) = w := by
  rw [wordOfBytes, hiByte, loByte]
  exact BitVec.extractLsb'_append_extractLsb'_eq_extractLsb' (by decide) |>.trans (by simp)

@[simp] theorem hiByte_wordOfBytes (hi lo : Byte) : hiByte (wordOfBytes hi lo) = hi := by
  rw [hiByte, wordOfBytes, slice_high _ _ (by decide), BitVec.extractLsb'_eq_self]

@[simp] theorem loByte_wordOfBytes (hi lo : Byte) : loByte (wordOfBytes hi lo) = lo := by
  rw [loByte, wordOfBytes, slice_low _ _ (by decide), BitVec.extractLsb'_eq_self]

/-- The decoder on the bytes of a word is the decoder on the word. -/
theorem decode_bytes (w : Word16) (rest : List Byte) :
    decode (hiByte w :: loByte w :: rest) = (decodeWord w).map fun i => (i, rest) := by
  rw [decode, wordOfBytes_hi_lo]

/-! ## A word from its own fields -/

/-- The family as four bits, for a word whose family is known. -/
theorem opField_bits (w : Word16) : w.extractLsb' 12 4 = BitVec.ofNat 4 (opField w) := by
  rw [opField, BitVec.ofNat_toNat, BitVec.setWidth_eq]

theorem formatNNN_fields (w : Word16) : formatNNN (BitVec.ofNat 4 (opField w)) (nnnField w) = w := by
  rw [← opField_bits, formatNNN, nnnField]
  exact BitVec.extractLsb'_append_extractLsb'_eq_extractLsb' (by decide) |>.trans (by simp)

theorem formatXNN_fields (w : Word16) :
    formatXNN (BitVec.ofNat 4 (opField w)) (xField w) (nnField w) = w := by
  rw [← opField_bits, formatXNN, xField, nnField]
  have h : w.extractLsb' 12 4 ++ w.extractLsb' 8 4 = w.extractLsb' 8 8 :=
    BitVec.extractLsb'_append_extractLsb'_eq_extractLsb' (by decide)
  rw [show (BitVec.ofFin (w.extractLsb' 8 4).toFin : BitVec 4) = w.extractLsb' 8 4 from rfl, h]
  exact BitVec.extractLsb'_append_extractLsb'_eq_extractLsb' (by decide) |>.trans (by simp)

theorem formatXYN_fields (w : Word16) :
    formatXYN (BitVec.ofNat 4 (opField w)) (xField w) (yField w) (nField w) = w := by
  rw [← opField_bits, formatXYN, xField, yField, nField]
  have h : w.extractLsb' 12 4 ++ w.extractLsb' 8 4 = w.extractLsb' 8 8 :=
    BitVec.extractLsb'_append_extractLsb'_eq_extractLsb' (by decide)
  have h2 : w.extractLsb' 8 8 ++ w.extractLsb' 4 4 = w.extractLsb' 4 12 :=
    BitVec.extractLsb'_append_extractLsb'_eq_extractLsb' (by decide)
  rw [show (BitVec.ofFin (w.extractLsb' 8 4).toFin : BitVec 4) = w.extractLsb' 8 4 from rfl,
    show (BitVec.ofFin (w.extractLsb' 4 4).toFin : BitVec 4) = w.extractLsb' 4 4 from rfl,
    show (BitVec.ofFin (w.extractLsb' 0 4).toFin : BitVec 4) = w.extractLsb' 0 4 from rfl, h, h2]
  exact BitVec.extractLsb'_append_extractLsb'_eq_extractLsb' (by decide) |>.trans (by simp)

theorem opField_lt (w : Word16) : opField w < 16 := (w.extractLsb' 12 4).isLt

end Sys2Proof
end

