-- ==== Sys2Proof/Laws/PerInstr.lean ====
section
/-! SUPPORT. For each instruction: decoding its encoding gives it back, with every operand. -/

namespace Sys2Proof.Laws.RoundTrip

/-- Decoding the word of a well-formed instruction gives the instruction. -/
def Statement (i : Instr) : Prop := i.wellFormed = true → decodeWord (encode i) = .ok i

theorem cls : Statement (.cls) :=
  fun _ => by decide

theorem ret : Statement (.ret) :=
  fun _ => by decide

theorem sys (nnn : BitVec 12) : Statement (.sys nnn) := fun h => by
  have h2 : nnn ≠ 0x0E0#12 ∧ nnn ≠ 0x0EE#12 := by simpa [Instr.wellFormed, sysAddrFree] using h
  simp [encode, decodeWord, decode0, show 0x00E0#16 = formatNNN 0 0x0E0#12 from rfl,
    show 0x00EE#16 = formatNNN 0 0x0EE#12 from rfl, formatNNN_inj, h2.1, h2.2]

theorem jp (nnn : BitVec 12) : Statement (.jp nnn) :=
  fun _ => by simp [encode, decodeWord]

theorem call (nnn : BitVec 12) : Statement (.call nnn) :=
  fun _ => by simp [encode, decodeWord]

theorem seImm (x : Reg) (nn : Byte) : Statement (.seImm x nn) :=
  fun _ => by simp [encode, decodeWord]

theorem sneImm (x : Reg) (nn : Byte) : Statement (.sneImm x nn) :=
  fun _ => by simp [encode, decodeWord]

theorem seReg (x y : Reg) : Statement (.seReg x y) :=
  fun _ => by simp [encode, decodeWord]

theorem ldImm (x : Reg) (nn : Byte) : Statement (.ldImm x nn) :=
  fun _ => by simp [encode, decodeWord]

theorem addImm (x : Reg) (nn : Byte) : Statement (.addImm x nn) :=
  fun _ => by simp [encode, decodeWord]

theorem ldReg (x y : Reg) : Statement (.ldReg x y) :=
  fun _ => by simp [encode, decodeWord, decode8]

theorem orReg (x y : Reg) : Statement (.orReg x y) :=
  fun _ => by simp [encode, decodeWord, decode8]

theorem andReg (x y : Reg) : Statement (.andReg x y) :=
  fun _ => by simp [encode, decodeWord, decode8]

theorem xorReg (x y : Reg) : Statement (.xorReg x y) :=
  fun _ => by simp [encode, decodeWord, decode8]

theorem addReg (x y : Reg) : Statement (.addReg x y) :=
  fun _ => by simp [encode, decodeWord, decode8]

theorem sub (x y : Reg) : Statement (.sub x y) :=
  fun _ => by simp [encode, decodeWord, decode8]

theorem shr (x y : Reg) : Statement (.shr x y) :=
  fun _ => by simp [encode, decodeWord, decode8]

theorem subn (x y : Reg) : Statement (.subn x y) :=
  fun _ => by simp [encode, decodeWord, decode8]

theorem shl (x y : Reg) : Statement (.shl x y) :=
  fun _ => by simp [encode, decodeWord, decode8]

theorem sneReg (x y : Reg) : Statement (.sneReg x y) :=
  fun _ => by simp [encode, decodeWord]

theorem ldI (nnn : BitVec 12) : Statement (.ldI nnn) :=
  fun _ => by simp [encode, decodeWord]

theorem jpV0 (nnn : BitVec 12) : Statement (.jpV0 nnn) :=
  fun _ => by simp [encode, decodeWord]

theorem rnd (x : Reg) (nn : Byte) : Statement (.rnd x nn) :=
  fun _ => by simp [encode, decodeWord]

theorem drw (x y : Reg) (n : Fin 16) : Statement (.drw x y n) :=
  fun _ => by simp [encode, decodeWord]

theorem skp (x : Reg) : Statement (.skp x) :=
  fun _ => by simp [encode, decodeWord, decodeE]

theorem sknp (x : Reg) : Statement (.sknp x) :=
  fun _ => by simp [encode, decodeWord, decodeE]

theorem ldVxDt (x : Reg) : Statement (.ldVxDt x) :=
  fun _ => by simp [encode, decodeWord, decodeF]

theorem ldVxK (x : Reg) : Statement (.ldVxK x) :=
  fun _ => by simp [encode, decodeWord, decodeF]

theorem ldDtVx (x : Reg) : Statement (.ldDtVx x) :=
  fun _ => by simp [encode, decodeWord, decodeF]

theorem ldStVx (x : Reg) : Statement (.ldStVx x) :=
  fun _ => by simp [encode, decodeWord, decodeF]

theorem addI (x : Reg) : Statement (.addI x) :=
  fun _ => by simp [encode, decodeWord, decodeF]

theorem ldF (x : Reg) : Statement (.ldF x) :=
  fun _ => by simp [encode, decodeWord, decodeF]

theorem ldB (x : Reg) : Statement (.ldB x) :=
  fun _ => by simp [encode, decodeWord, decodeF]

theorem stRegs (x : Reg) : Statement (.stRegs x) :=
  fun _ => by simp [encode, decodeWord, decodeF]

theorem ldRegs (x : Reg) : Statement (.ldRegs x) :=
  fun _ => by simp [encode, decodeWord, decodeF]

end Sys2Proof.Laws.RoundTrip
end

