-- ==== Sys2Proof/Safety.lean ====
section
/-! DEFINITION. The terms claims use: the safe condition, the invariants, and the words a statement about
an instruction is made of. -/

namespace Sys2Proof.Safety

open Sys2Proof Sys2Proof.Machine

/-- The machine is running: no fault is latched (rule R98). Claims about a program take it as a premise
(rule R176, row U5 of spec/93_implementation_defined.md). -/
abbrev Running (s : State) : Prop := s.fault = none

/-- `MEM` is in canonical form (log entry 6). -/
abbrev MemoryCanonical (s : State) : Prop := s.mem.wf

/-- `PC` is at most 0x10FE and every live stack entry is the address of a call, at most 4094 (rule R24). -/
def ControlBounded (s : State) : Prop :=
  s.pc.toNat ≤ 0x10FE ∧ ∀ j : Fin 16, j.val < s.sp.val → s.stk[j].toNat ≤ 4094

/-- A faulted machine has no ADVANCE in progress: the fault ended it (rules R96, R176). -/
def FaultEndedAdvance (s : State) : Prop := ¬ Running s → s.adv = none

/-- `t` is `s` after a fault with cause `c`: `FAULT` is latched, the ADVANCE in progress has answered
`Error`, and everything else is as it was (rule R176). -/
def FaultLatched (c : Cause) (s t : State) : Prop :=
  t = { s with fault := some c, adv := none, result := some (.error c) }

/-- `t` differs from `s` in nothing but `PC`. -/
def OnlyPc (s t : State) : Prop := t = { s with pc := t.pc }

/-- `t` differs from `s` in nothing but `PC` and the general registers. -/
def OnlyRegsPc (s t : State) : Prop := t = { s with pc := t.pc, v := t.v }

/-- `PC` went on to the next instruction in line: two further, modulo 65536. -/
def PcSequential (s t : State) : Prop := t.pc.toNat = (s.pc.toNat + 2) % 65536

/-- `PC` took or did not take a skip: four or two further, modulo 65536 (rule R109). -/
def PcSkipped (s t : State) (taken : Bool) : Prop :=
  t.pc.toNat = (s.pc.toNat + if taken then 4 else 2) % 65536

/-- An access to the `n` bytes at `I` on stays below 4096; with `n = 0` there is no access (rules R55, R151). -/
def IndexBlockInMemory (s : State) (n : Nat) : Prop := n = 0 ∨ s.indexAddr (n - 1) < 4096

/-- Every register that is not in `written` is as it was. -/
def RegsKeptBut (written : List Reg) (s t : State) : Prop := ∀ r : Reg, r ∉ written → t.v[r] = s.v[r]

/-- Every byte of `MEM` outside the `n` bytes from `a` on reads as before. -/
def BytesKeptBut (a n : Nat) (s t : State) : Prop :=
  ∀ b : Nat, ¬ (a ≤ b ∧ b < a + n) → t.mem.read b = s.mem.read b

/-- The sprite pixel that falls on display position `(row, col)` for a sprite of `n` rows from `I` with its
top left at column `V[x]`, row `V[y]`: bit `7 - c` of row byte `r`, where `col = V[x] + c` and
`row = V[y] + r` (rule R152). Written position by position, and not by the loop of rule R151. -/
def spritePixel (s : State) (x y : Reg) (n : Nat) (row col : Nat) : Bool :=
  let x0 := s.v[x].toNat
  let y0 := s.v[y].toNat
  decide (x0 ≤ col ∧ col < x0 + 8 ∧ y0 ≤ row ∧ row < y0 + n) &&
    (s.mem.read (s.i.toNat + (row - y0))).getLsbD (7 - (col - x0))

/-- Every piece of the machine's own state but `MEM` has its reset value (rule R34). -/
def RegistersAtReset (s : State) : Prop :=
  (∀ r : Fin 16, s.v[r] = 0) ∧ s.i = 0 ∧ s.pc = 0x200#16 ∧ s.sp = 0 ∧ (∀ j : Fin 16, s.stk[j] = 0) ∧
    s.dt = 0 ∧ s.st = 0 ∧ (∀ (y : Fin 32) (x : Fin 64), s.fb.pixel y x = false) ∧
    (∀ k : Fin 16, s.keys[k] = false) ∧ s.fault = none

/-- What address `a` holds after RESET: `FONT_DATA` from 0x050 to 0x09F, and zero elsewhere (rules R32,
R34, R54). -/
def resetByte (a : Nat) : Byte :=
  if 0x050 ≤ a ∧ a ≤ 0x09F then Config.fontData.getD (a - 0x050) 0 else 0

/-- The six instructions that write the flag (rule R22). -/
def writesFlag : Instr → Bool
  | .addReg _ _ | .sub _ _ | .shr _ _ | .subn _ _ | .shl _ _ | .drw _ _ _ => true
  | .cls | .ret | .sys _ | .jp _ | .call _ | .seImm _ _ | .sneImm _ _ | .seReg _ _ | .ldImm _ _
  | .addImm _ _ | .ldReg _ _ | .orReg _ _ | .andReg _ _ | .xorReg _ _ | .sneReg _ _ | .ldI _ | .jpV0 _
  | .rnd _ _ | .skp _ | .sknp _ | .ldVxDt _ | .ldVxK _ | .ldDtVx _ | .ldStVx _ | .addI _ | .ldF _
  | .ldB _ | .stRegs _ | .ldRegs _ => false

/-- The registers an instruction names as those it writes: `V[X]`, or for `FX65` all of `V[0]` to `V[X]` (rule
R21). -/
def namedDestinations : Instr → List Reg
  | .ldImm x _ | .addImm x _ | .ldReg x _ | .orReg x _ | .andReg x _ | .xorReg x _ | .addReg x _ | .sub x _
  | .shr x _ | .subn x _ | .shl x _ | .rnd x _ | .ldVxDt x | .ldVxK x => [x]
  | .ldRegs x => (List.finRange 16).filter (· ≤ x)
  | .cls | .ret | .sys _ | .jp _ | .call _ | .seImm _ _ | .sneImm _ _ | .seReg _ _ | .sneReg _ _ | .ldI _
  | .jpV0 _ | .drw _ _ _ | .skp _ | .sknp _ | .ldDtVx _ | .ldStVx _ | .addI _ | .ldF _ | .ldB _
  | .stRegs _ => []

/-- The words rule R79 calls invalid, by family, on the number of the word. -/
def InvalidWord (w : Nat) : Prop :=
  (w / 4096 = 0x5 ∧ w % 16 ≠ 0) ∨
  (w / 4096 = 0x8 ∧ w % 16 ∈ [0x8, 0x9, 0xA, 0xB, 0xC, 0xD, 0xF]) ∨
  (w / 4096 = 0x9 ∧ w % 16 ≠ 0) ∨
  (w / 4096 = 0xE ∧ w % 256 ∉ [0x9E, 0xA1]) ∨
  (w / 4096 = 0xF ∧ w % 256 ∉ [0x07, 0x0A, 0x15, 0x18, 0x1E, 0x29, 0x33, 0x55, 0x65])

/-- When an instruction raises which fault (rules R170, R172 to R175). -/
def RaisesFault (i : Instr) (s : State) (c : Cause) : Prop :=
  (c = .stackOverflow ∧ (∃ nnn, i = .call nnn) ∧ s.sp.val = 16) ∨
  (c = .stackUnderflow ∧ i = .ret ∧ s.sp.val = 0) ∨
  (c = .keyIndexOutOfRange ∧ (∃ x, (i = .skp x ∨ i = .sknp x) ∧ 15 < s.v[x].toNat)) ∨
  (c = .memOutOfBounds ∧
    ((∃ x y n, i = .drw x y n ∧ 0 < n.val ∧ 4096 ≤ s.i.toNat + n.val - 1) ∨
     (∃ x, i = .ldB x ∧ 4096 ≤ s.i.toNat + 2) ∨
     (∃ x : Reg, (i = .stRegs x ∨ i = .ldRegs x) ∧ 4096 ≤ s.i.toNat + x.val)))

end Sys2Proof.Safety
end

