-- ==== Sys2Proof/Certificates/Slice0/Obligations.lean ====
section
/-! DEFINITION. The statements for the provers. `R<n>` is a rule of spec/, `D<n>` a decision the spec marks as
its own choice, and log entry `n` is notes/assumptions/n.md. -/

open Sys2Proof Sys2Proof.Machine Sys2Proof.Safety

/-! ## Encoding -/

/-- Every well-formed instruction is what its own word decodes to, with every operand. -/
def Obligations.DecodeInvertsEncode : Prop :=
  ∀ i : Instr, i.wellFormed = true → decodeWord (encode i) = .ok i

/-- Every word that decodes is the word of the well-formed instruction it decodes to. -/
def Obligations.EncodeInvertsDecode : Prop :=
  ∀ (w : Word16) (i : Instr), decodeWord w = .ok i → i.wellFormed = true ∧ encode i = w

/-- The decoder refuses exactly the invalid words of rule R79. That `5XYN` and `9XYN` with `N` not 0 are among
them is the spec's own choice D12 (log entry 18). -/
def Obligations.RejectedWordsAreTheInvalidOnes : Prop :=
  ∀ w : Word16, (∃ r, decodeWord w = .error r) ↔ InvalidWord w.toNat

/-- Words of the spec's own decode table (95_test_vectors.md, 2.1), and one more of family 2 and one of family D,
written out in bits from the encodings of rule R76. That 5121 and 9121 are refused is the spec's own choice D12
(log entry 18). -/
def Obligations.SampleWordsDecodeAsListed : Prop :=
  decodeWord 0b0000000011100000#16 = .ok .cls ∧ decodeWord 0b0000000011101110#16 = .ok .ret ∧
  decodeWord 0b0000000011101111#16 = .ok (.sys 0x0EF) ∧ decodeWord 0b0010001100000000#16 = .ok (.call 0x300) ∧
  decodeWord 0b0101000100100000#16 = .ok (.seReg 1 2) ∧ decodeWord 0b1000000100101110#16 = .ok (.shl 1 2) ∧
  decodeWord 0b1000000111110110#16 = .ok (.shr 1 15) ∧ decodeWord 0b1101000100100101#16 = .ok (.drw 1 2 5) ∧
  decodeWord 0b1110001010011110#16 = .ok (.skp 2) ∧ decodeWord 0b1111000101100101#16 = .ok (.ldRegs 1) ∧
  decodeWord 0x5121#16 = .error .family5 ∧ decodeWord 0x8128#16 = .error .family8 ∧
  decodeWord 0x9121#16 = .error .family9 ∧ decodeWord 0xE29F#16 = .error .familyE ∧
  decodeWord 0xFFFF#16 = .error .familyF

/-! ## One step -/

/-- The fetch: the byte at `PC` is the high byte, the byte at `PC + 1` the low byte, and at `PC` of 4095 or more
the step raises `MemOutOfBounds` and `PC` is kept. That `PC + 1` never wraps is the spec's own choice D14 (log
entry 20), and that the faulted state keeps `PC` its choice D15 (log entry 12). -/
def Obligations.FetchReadsTwoBytesBelow4096 : Prop :=
  ∀ s : State,
    (s.pc.toNat ≤ 4094 → ∃ w, s.fetchWord = some w ∧
      w.toNat = 256 * (s.mem.read s.pc.toNat).toNat + (s.mem.read (s.pc.toNat + 1)).toNat) ∧
    (4095 ≤ s.pc.toNat → s.fetchWord = none ∧ ∃ t, interpret s = .next t ∧ t.fault = some .memOutOfBounds ∧
      t.pc = s.pc)

/-- With an ADVANCE in progress that has a step left, and no fault latched, a step is the meaning of the
instruction the two bytes at `PC` decode to, on the state with one step less to run. -/
def Obligations.StepRunsTheDecodedInstruction : Prop :=
  ∀ (s : State) (k : Nat) (i : Instr), s.adv = some (k + 1) → Running s → s.pc.toNat + 1 < 4096 →
    decodeWord (wordOfBytes (s.mem.read s.pc.toNat) (s.mem.read (s.pc.toNat + 1))) = .ok i →
    step s = exec i { s with adv := some k }

/-- A fetched word that decodes to no instruction latches `InvalidOpcode` and changes nothing else of the
machine. That the faulted state is the state before is the spec's own choice D15 (log entry 12). -/
def Obligations.StepFaultsOnAnInvalidWord : Prop :=
  ∀ (s : State) (k : Nat) (r : Reject), s.adv = some (k + 1) → Running s → s.pc.toNat + 1 < 4096 →
    decodeWord (wordOfBytes (s.mem.read s.pc.toNat) (s.mem.read (s.pc.toNat + 1))) = .error r →
    ∃ t, step s = .next t ∧ FaultLatched .invalidOpcode s t

/-- A word placed where the step fetches is the one the very next step runs, from every state. What
`withFetchWord` sets beside the two bytes is the model's own (log entry 29). -/
def Obligations.PlacedWordRunsNext : Prop :=
  ∀ (s : State) (w : Word16) (i : Instr), decodeWord w = .ok i →
    ∃ k, (s.withFetchWord 16 w.toNat).adv = some (k + 1) ∧
      step (s.withFetchWord 16 w.toNat) = exec i { s.withFetchWord 16 w.toNat with adv := some k }

/-! ## Control flow -/

/-- `00EE`. That the fault leaves everything but `FAULT` as it was is the spec's own choice D15 (log entry 12). -/
def Obligations.ReturnPopsTheCallStack : Prop :=
  ∀ s : State,
    (∀ h : 0 < s.sp.val, ∃ t, exec .ret s = .next t ∧ t = { s with pc := t.pc, sp := t.sp } ∧
      t.sp.val + 1 = s.sp.val ∧ t.pc.toNat = ((s.stk[s.sp.val - 1]'(by omega)).toNat + 2) % 65536) ∧
    (s.sp.val = 0 → ∃ t, exec .ret s = .next t ∧ FaultLatched .stackUnderflow s t)

/-- `0NNN`. That it is a no-op, and no invalid opcode, is the spec's own choice D13 (log entry 19). -/
def Obligations.SysOnlyAdvancesPc : Prop :=
  ∀ (nnn : BitVec 12) (s : State), ∃ t, exec (.sys nnn) s = .next t ∧ OnlyPc s t ∧ PcSequential s t

/-- `1NNN` (R102). -/
def Obligations.JumpSetsPcOnly : Prop :=
  ∀ (nnn : BitVec 12) (s : State), ∃ t, exec (.jp nnn) s = .next t ∧ OnlyPc s t ∧ t.pc.toNat = nnn.toNat

/-- `2NNN`. The capacity 16 is the spec's own choice D3 (log entry 3), and that the fault leaves everything but
`FAULT` as it was its choice D15 (log entry 12). -/
def Obligations.CallPushesItsOwnAddress : Prop :=
  ∀ (nnn : BitVec 12) (s : State),
    (∀ h : s.sp.val < 16, ∃ t, exec (.call nnn) s = .next t ∧
      t = { s with pc := t.pc, sp := t.sp, stk := t.stk } ∧ t.sp.val = s.sp.val + 1 ∧
      t.stk[s.sp.val] = s.pc ∧ (∀ j : Fin 16, j.val ≠ s.sp.val → t.stk[j] = s.stk[j]) ∧
      t.pc.toNat = nnn.toNat) ∧
    (s.sp.val = 16 → ∃ t, exec (.call nnn) s = .next t ∧ FaultLatched .stackOverflow s t)

/-- A call at any depth, and a return from any state that has the stack the call left: two past the call, at the
depth before it (the property E5). The capacity 16 is the spec's own choice D3 (log entry 3). -/
def Obligations.ReturnUndoesCall : Prop :=
  ∀ (nnn : BitVec 12) (s : State), s.sp.val < 16 →
    ∃ t, exec (.call nnn) s = .next t ∧ ∀ u : State, u.stk = t.stk → u.sp = t.sp →
      ∃ r, exec .ret u = .next r ∧ r.sp = s.sp ∧ r.pc.toNat = (s.pc.toNat + 2) % 65536

/-- `3XNN`, `4XNN` (R104, R105). -/
def Obligations.ImmediateSkipsCompareOneRegister : Prop :=
  ∀ (x : Reg) (nn : Byte) (s : State),
    (∃ t, exec (.seImm x nn) s = .next t ∧ OnlyPc s t ∧
      PcSkipped s t (decide (s.v[x].toNat = nn.toNat))) ∧
    (∃ t, exec (.sneImm x nn) s = .next t ∧ OnlyPc s t ∧
      PcSkipped s t (decide (s.v[x].toNat ≠ nn.toNat)))

/-- `5XY0`, `9XY0` (R106, R107). -/
def Obligations.RegisterSkipsCompareTwoRegisters : Prop :=
  ∀ (x y : Reg) (s : State),
    (∃ t, exec (.seReg x y) s = .next t ∧ OnlyPc s t ∧
      PcSkipped s t (decide (s.v[x].toNat = s.v[y].toNat))) ∧
    (∃ t, exec (.sneReg x y) s = .next t ∧ OnlyPc s t ∧
      PcSkipped s t (decide (s.v[x].toNat ≠ s.v[y].toNat)))

/-- `BNNN` (R108): the sum is never reduced. -/
def Obligations.OffsetJumpAddsRegisterZero : Prop :=
  ∀ (nnn : BitVec 12) (s : State), ∃ t, exec (.jpV0 nnn) s = .next t ∧ OnlyPc s t ∧
    t.pc.toNat = nnn.toNat + s.v[0].toNat

/-! ## Arithmetic and logic -/

/-- `6XNN`, `8XY0` (R120, R122). -/
def Obligations.LoadsSetOneRegister : Prop :=
  ∀ (x y : Reg) (nn : Byte) (s : State),
    (∃ t, exec (.ldImm x nn) s = .next t ∧ OnlyRegsPc s t ∧ PcSequential s t ∧ RegsKeptBut [x] s t ∧
      t.v[x] = nn) ∧
    (∃ t, exec (.ldReg x y) s = .next t ∧ OnlyRegsPc s t ∧ PcSequential s t ∧ RegsKeptBut [x] s t ∧
      t.v[x] = s.v[y])

/-- `7XNN` (R121): no flag, so `V[0xF]` is kept unless it is `X`. -/
def Obligations.AddImmediateWrapsWithoutFlag : Prop :=
  ∀ (x : Reg) (nn : Byte) (s : State), ∃ t, exec (.addImm x nn) s = .next t ∧ OnlyRegsPc s t ∧
    PcSequential s t ∧ RegsKeptBut [x] s t ∧ t.v[x].toNat = (s.v[x].toNat + nn.toNat) % 256

/-- `8XY1`, `8XY2`, `8XY3`: bit by bit, and no flag. That `V[0xF]` is kept is the spec's own reading D31 of its
source (log entry 28, DEDUCED). -/
def Obligations.LogicWorksBitByBitWithoutFlag : Prop :=
  ∀ (x y : Reg) (s : State),
    (∃ t, exec (.orReg x y) s = .next t ∧ OnlyRegsPc s t ∧ PcSequential s t ∧ RegsKeptBut [x] s t ∧
      ∀ k < 8, t.v[x].getLsbD k = (s.v[x].getLsbD k || s.v[y].getLsbD k)) ∧
    (∃ t, exec (.andReg x y) s = .next t ∧ OnlyRegsPc s t ∧ PcSequential s t ∧ RegsKeptBut [x] s t ∧
      ∀ k < 8, t.v[x].getLsbD k = (s.v[x].getLsbD k && s.v[y].getLsbD k)) ∧
    (∃ t, exec (.xorReg x y) s = .next t ∧ OnlyRegsPc s t ∧ PcSequential s t ∧ RegsKeptBut [x] s t ∧
      ∀ k < 8, t.v[x].getLsbD k = (s.v[x].getLsbD k != s.v[y].getLsbD k))

/-- `8XY4` (R126): for `X = F` the carry is what remains. -/
def Obligations.AddSetsCarry : Prop :=
  ∀ (x y : Reg) (s : State), ∃ t, exec (.addReg x y) s = .next t ∧ OnlyRegsPc s t ∧ PcSequential s t ∧
    RegsKeptBut [x, 15] s t ∧
    (x ≠ 15 → t.v[x].toNat = (s.v[x].toNat + s.v[y].toNat) % 256) ∧
    t.v[15].toNat = if s.v[x].toNat + s.v[y].toNat > 255 then 1 else 0

/-- `8XY5` (R127): for `X = F` the flag is what remains. -/
def Obligations.SubtractSetsNoBorrow : Prop :=
  ∀ (x y : Reg) (s : State), ∃ t, exec (.sub x y) s = .next t ∧ OnlyRegsPc s t ∧ PcSequential s t ∧
    RegsKeptBut [x, 15] s t ∧
    (x ≠ 15 → t.v[x].toNat = (s.v[x].toNat + 256 - s.v[y].toNat) % 256) ∧
    t.v[15].toNat = if s.v[x].toNat ≥ s.v[y].toNat then 1 else 0

/-- `8XY7` (R129). That the flag is what remains for `X = F` is the spec's own choice D10 (log entry 16). -/
def Obligations.ReversedSubtractSetsNoBorrow : Prop :=
  ∀ (x y : Reg) (s : State), ∃ t, exec (.subn x y) s = .next t ∧ OnlyRegsPc s t ∧ PcSequential s t ∧
    RegsKeptBut [x, 15] s t ∧
    (x ≠ 15 → t.v[x].toNat = (s.v[y].toNat + 256 - s.v[x].toNat) % 256) ∧
    t.v[15].toNat = if s.v[y].toNat ≥ s.v[x].toNat then 1 else 0

/-- `8XY6`, `8XYE` (R128, R130), for every `Y`, which is not read. That the flag is what remains for `X = F` is
the spec's own choice D10 (log entry 16). -/
def Obligations.ShiftsMoveOneBitIntoTheFlag : Prop :=
  ∀ (x y : Reg) (s : State),
    (∃ t, exec (.shr x y) s = .next t ∧ OnlyRegsPc s t ∧ PcSequential s t ∧ RegsKeptBut [x, 15] s t ∧
      (x ≠ 15 → t.v[x].toNat = s.v[x].toNat / 2) ∧ t.v[15].toNat = s.v[x].toNat % 2) ∧
    (∃ t, exec (.shl x y) s = .next t ∧ OnlyRegsPc s t ∧ PcSequential s t ∧ RegsKeptBut [x, 15] s t ∧
      (x ≠ 15 → t.v[x].toNat = s.v[x].toNat * 2 % 256) ∧ t.v[15].toNat = s.v[x].toNat / 128)

/-- `CXNN` (R132): one fresh byte, masked. The byte is a free value (log entry 5), and this holds of every one. -/
def Obligations.RandomByteIsMaskedAndUsedOnce : Prop :=
  ∀ (x : Reg) (nn : Byte) (s : State), ∃ t, exec (.rnd x nn) s = .next t ∧
    t = { s with pc := t.pc, v := t.v, draws := s.draws + 1 } ∧ PcSequential s t ∧ RegsKeptBut [x] s t ∧
    t.v[x] = Config.randByte s.draws &&& nn ∧ ∀ k < 8, nn.getLsbD k = false → t.v[x].getLsbD k = false

/-! ## The index register and memory -/

/-- `ANNN`, `FX1E` (R140, R141): no register is written, so no flag either. -/
def Obligations.IndexIsLoadedAndAddedTo : Prop :=
  ∀ (nnn : BitVec 12) (x : Reg) (s : State),
    (∃ t, exec (.ldI nnn) s = .next t ∧ t = { s with pc := t.pc, i := t.i } ∧ PcSequential s t ∧
      t.i.toNat = nnn.toNat) ∧
    (∃ t, exec (.addI x) s = .next t ∧ t = { s with pc := t.pc, i := t.i } ∧ PcSequential s t ∧
      t.i.toNat = (s.i.toNat + s.v[x].toNat) % 65536)

/-- `FX29` (R142). That all eight bits of `V[X]` count is the spec's own choice D24, and 0x050 its choice D1
(log entries 24, 1). -/
def Obligations.GlyphAddressIsFiveTimesTheRegister : Prop :=
  ∀ (x : Reg) (s : State), ∃ t, exec (.ldF x) s = .next t ∧ t = { s with pc := t.pc, i := t.i } ∧
    PcSequential s t ∧ t.i.toNat = 0x050 + 5 * s.v[x].toNat

/-- `FX33`. That the address is never reduced is the spec's own choice D14 (log entry 20), and that the fault
leaves everything but `FAULT` as it was its choice D15 (log entry 12). -/
def Obligations.DecimalDigitsAreStored : Prop :=
  ∀ (x : Reg) (s : State),
    (s.indexAddr 2 < 4096 → ∃ t, exec (.ldB x) s = .next t ∧ t = { s with pc := t.pc, mem := t.mem } ∧
      PcSequential s t ∧ BytesKeptBut (s.indexAddr 0) 3 s t ∧
      (t.mem.read (s.indexAddr 0)).toNat = s.v[x].toNat / 100 ∧
      (t.mem.read (s.indexAddr 1)).toNat = s.v[x].toNat / 10 % 10 ∧
      (t.mem.read (s.indexAddr 2)).toNat = s.v[x].toNat % 10) ∧
    (4096 ≤ s.indexAddr 2 → ∃ t, exec (.ldB x) s = .next t ∧ FaultLatched .memOutOfBounds s t)

/-- `FX55`. That the address is never reduced is the spec's own choice D14 (log entry 20), and that the fault
leaves everything but `FAULT` as it was its choice D15 (log entry 12). -/
def Obligations.RegistersAreStoredInOrder : Prop :=
  ∀ (x : Reg) (s : State),
    (s.indexAddr x.val < 4096 → ∃ t, exec (.stRegs x) s = .next t ∧
      t = { s with pc := t.pc, mem := t.mem } ∧ PcSequential s t ∧
      BytesKeptBut (s.indexAddr 0) (x.val + 1) s t ∧
      ∀ j : Reg, j ≤ x → t.mem.read (s.indexAddr j.val) = s.v[j]) ∧
    (4096 ≤ s.indexAddr x.val → ∃ t, exec (.stRegs x) s = .next t ∧ FaultLatched .memOutOfBounds s t)

/-- `FX65`. That the address is never reduced is the spec's own choice D14 (log entry 20), and that the fault
leaves everything but `FAULT` as it was its choice D15 (log entry 12). -/
def Obligations.RegistersAreLoadedInOrder : Prop :=
  ∀ (x : Reg) (s : State),
    (s.indexAddr x.val < 4096 → ∃ t, exec (.ldRegs x) s = .next t ∧ OnlyRegsPc s t ∧ PcSequential s t ∧
      ∀ j : Reg, t.v[j] = if j ≤ x then s.mem.read (s.indexAddr j.val) else s.v[j]) ∧
    (4096 ≤ s.indexAddr x.val → ∃ t, exec (.ldRegs x) s = .next t ∧ FaultLatched .memOutOfBounds s t)

/-- A store into the next instruction is what the next fetch reads (R61, an inference of the spec's own). -/
def Obligations.StoredCodeIsFetchedNext : Prop :=
  ∀ (x j : Reg) (s : State), s.indexAddr x.val < 4096 → s.pc.toNat + 3 < 4096 →
    s.indexAddr j.val = s.pc.toNat + 2 → ∀ h : j.val + 1 ≤ x.val,
    ∃ t, exec (.stRegs x) s = .next t ∧
      t.fetchWord = some (wordOfBytes s.v[j] (s.v[j.val + 1]'(by omega)))

/-! ## The display -/

/-- `00E0` (R150). -/
def Obligations.ClearTurnsEveryPixelOff : Prop :=
  ∀ s : State, ∃ t, exec .cls s = .next t ∧ t = { s with pc := t.pc, fb := t.fb } ∧ PcSequential s t ∧
    ∀ (y : Fin 32) (x : Fin 64), t.fb.pixel y x = false

/-- `DXYN` (R151, R152): each pixel is flipped exactly where the sprite covers it, and the flag says whether one
that was set is covered. That sprites are clipped is the spec's own choice D8, and that every byte is
bounds-checked its choice D9 (log entry 15); that the flag is written last is its choice D10 (log entry 16). -/
def Obligations.DrawFlipsTheCoveredPixels : Prop :=
  ∀ (x y : Reg) (n : Fin 16) (s : State), IndexBlockInMemory s n.val →
    ∃ t, exec (.drw x y n) s = .next t ∧ t = { s with pc := t.pc, fb := t.fb, v := t.v } ∧
      PcSequential s t ∧ RegsKeptBut [15] s t ∧
      (∀ (row : Fin 32) (col : Fin 64),
        t.fb.pixel row col = (s.fb.pixel row col != spritePixel s x y n.val row.val col.val)) ∧
      ((∃ (row : Fin 32) (col : Fin 64), s.fb.pixel row col = true ∧
          spritePixel s x y n.val row.val col.val = true) → t.v[15] = 1) ∧
      ((∀ (row : Fin 32) (col : Fin 64), s.fb.pixel row col = true →
          spritePixel s x y n.val row.val col.val = false) → t.v[15] = 0)

/-- `DXYN` with a sprite byte at 4096 or above (the spec's own choice D9, log entry 15; that only
`FAULT` changes is its choice D15, log entry 12). -/
def Obligations.DrawPastMemoryFaults : Prop :=
  ∀ (x y : Reg) (n : Fin 16) (s : State), 0 < n.val → 4096 ≤ s.indexAddr (n.val - 1) →
    ∃ t, exec (.drw x y n) s = .next t ∧ FaultLatched .memOutOfBounds s t

/-- Drawing the same sprite again at the same place, from any state with the display the first draw left, puts
the display back, and the flag is then 1 exactly when the first draw set a pixel (the property E4, at the edges too
with clipping, the spec's own choice D8, log entry 15). -/
def Obligations.DrawingTwiceRestoresTheDisplay : Prop :=
  ∀ (x y : Reg) (n : Fin 16) (s t u : State), IndexBlockInMemory s n.val → exec (.drw x y n) s = .next t →
    u.fb = t.fb → u.i = s.i → u.mem = s.mem → u.v[x] = s.v[x] → u.v[y] = s.v[y] →
    ∃ r, exec (.drw x y n) u = .next r ∧ r.fb = s.fb ∧ (r.v[15] = 0 ∨ r.v[15] = 1) ∧
      (r.v[15] = 1 ↔ ∃ (row : Fin 32) (col : Fin 64),
        s.fb.pixel row col = false ∧ t.fb.pixel row col = true)

/-! ## Keys and timers -/

/-- `EX9E`, `EXA1` (R160, R161). That an index above 15 faults is the spec's own choice D11 (log entry 17),
and that only `FAULT` changes its choice D15 (log entry 12). -/
def Obligations.KeySkipsTestTheKeyOfTheRegister : Prop :=
  ∀ (x : Reg) (s : State),
    (∀ h : s.v[x].toNat ≤ 15,
      (∃ t, exec (.skp x) s = .next t ∧ OnlyPc s t ∧
        PcSkipped s t (s.keys[s.v[x].toNat]'(by omega))) ∧
      (∃ t, exec (.sknp x) s = .next t ∧ OnlyPc s t ∧
        PcSkipped s t (!(s.keys[s.v[x].toNat]'(by omega))))) ∧
    (15 < s.v[x].toNat →
      (∃ t, exec (.skp x) s = .next t ∧ FaultLatched .keyIndexOutOfRange s t) ∧
      (∃ t, exec (.sknp x) s = .next t ∧ FaultLatched .keyIndexOutOfRange s t))

/-- `FX0A` (R162). -/
def Obligations.KeyWaitTakesTheLeastPressedKey : Prop :=
  ∀ (x : Reg) (s : State),
    ((∀ k : Fin 16, s.keys[k] = false) → exec (.ldVxK x) s = .next s) ∧
    (∀ k : Fin 16, s.keys[k] = true → (∀ j : Fin 16, j < k → s.keys[j] = false) →
      ∃ t, exec (.ldVxK x) s = .next t ∧ OnlyRegsPc s t ∧ PcSequential s t ∧ RegsKeptBut [x] s t ∧
        t.v[x].toNat = k.val)

/-- `FX07` (R163). -/
def Obligations.DelayTimerIsRead : Prop :=
  ∀ (x : Reg) (s : State), ∃ t, exec (.ldVxDt x) s = .next t ∧ OnlyRegsPc s t ∧ PcSequential s t ∧
    RegsKeptBut [x] s t ∧ t.v[x] = s.dt

/-- `FX15`, `FX18`: `DT <- V[X]` (R164) and `ST <- V[X]` (R165). -/
def Obligations.TimersAreSet : Prop :=
  ∀ (x : Reg) (s : State),
    (∃ t, exec (.ldDtVx x) s = .next t ∧ t = { s with pc := t.pc, dt := s.v[x] } ∧ PcSequential s t) ∧
    (∃ t, exec (.ldStVx x) s = .next t ∧ t = { s with pc := t.pc, st := s.v[x] } ∧ PcSequential s t)

/-! ## Rules of the whole machine -/

/-- A register changes only by an instruction that names it as its destination, and `V[0xF]` by the six that
write the flag as well, which leave 0 or 1 there (R21, R22). That the flag remains for `X = F` is in part the spec's
own choice D10 (log entry 16). -/
def Obligations.RegistersAreWrittenOnlyAsNamed : Prop :=
  ∀ (i : Instr) (s t : State), exec i s = .next t →
    (∀ r : Reg, r ∉ namedDestinations i → ¬ (writesFlag i = true ∧ r = 15) → t.v[r] = s.v[r]) ∧
    (writesFlag i = true → t.fault = none → t.v[15] = 0 ∨ t.v[15] = 1)

/-- Only `2NNN` and `00EE` touch the call stack, and only `2NNN` writes an entry (R26). -/
def Obligations.OnlyCallAndReturnTouchTheStack : Prop :=
  ∀ (i : Instr) (s t : State), exec i s = .next t →
    ((∀ nnn, i ≠ .call nnn) → t.stk = s.stk) ∧
    ((∀ nnn, i ≠ .call nnn) → i ≠ .ret → t.sp = s.sp)

/-- Only `FX33` and `FX55` write `MEM`, and only `00E0` and `DXYN` write `FB` (R53, R57). -/
def Obligations.MemoryAndDisplayHaveTwoWritersEach : Prop :=
  ∀ (i : Instr) (s t : State), exec i s = .next t →
    ((∀ x, i ≠ .ldB x) → (∀ x, i ≠ .stRegs x) → t.mem = s.mem) ∧
    (i ≠ .cls → (∀ x y n, i ≠ .drw x y n) → t.fb = s.fb)

/-- `I`, `DT` and `ST` are written by their dedicated instructions only, `K` by none, and a random byte is drawn by
`CXNN` only (R25, R27, R28, R30, R37, R132). -/
def Obligations.SpecialRegistersHaveDedicatedWriters : Prop :=
  ∀ (i : Instr) (s t : State), exec i s = .next t →
    ((∀ n, i ≠ .ldI n) → (∀ x, i ≠ .addI x) → (∀ x, i ≠ .ldF x) → t.i = s.i) ∧
    ((∀ x, i ≠ .ldDtVx x) → t.dt = s.dt) ∧ ((∀ x, i ≠ .ldStVx x) → t.st = s.st) ∧
    t.keys = s.keys ∧ ((∀ x nn, i ≠ .rnd x nn) → t.draws = s.draws)

/-- `ST` is written and never read: two runs of an instruction that differ only in `ST` differ afterwards at most in
`ST`, and after `FX18` not even there (R28). For `CXNN` both runs get the same random byte, `Config.randByte` of their
equal `draws`: R93 takes the byte as an input of the step, and that equal counts give equal bytes is the model's
choice (log entry 5). -/
def Obligations.SoundTimerIsNeverRead : Prop :=
  ∀ (i : Instr) (s : State) (b : Byte), ∃ t u, exec i s = .next t ∧ exec i { s with st := b } = .next u ∧
    u = { t with st := u.st } ∧ ((∃ x, i = .ldStVx x) → u = t) ∧ ((∀ x, i ≠ .ldStVx x) → u.st = b)

/-- An instruction raises exactly the fault that is due: which one, and on which states (R170, R172 to R175). The
key index and the unreduced addresses are the spec's own choices D11 and D14, the capacity 16 its choice D3, and
that `DXYN` has all its sprite bytes checked, those of rows off the display too, its choice D9 (log entries 17, 20,
3, 15). -/
def Obligations.FaultsAreRaisedExactlyWhenDue : Prop :=
  ∀ (i : Instr) (s t : State) (c : Cause), Running s → exec i s = .next t →
    (t.fault = some c ↔ RaisesFault i s c)

/-- A step that faults changes nothing of the machine but `FAULT`, ends the ADVANCE in progress with its code and
performs no tick (R176, R96; precise faults are the spec's own choice D15, no tick its choice D17, log entry
12). -/
def Obligations.FaultsArePreciseAndEndTheAdvance : Prop :=
  ∀ (s t : State) (n : Nat) (c : Cause), Running s → s.adv = some n → step s = .next t →
    t.fault = some c → FaultLatched c s t

/-- The key vector does not change while an ADVANCE is in progress (R30, R208). -/
def Obligations.KeysAreConstantDuringAnAdvance : Prop :=
  ∀ (s t : State) (n : Nat), s.adv = some n → step s = .next t → t.keys = s.keys

/-! ## The host's transactions -/

/-- The tick that ends an ADVANCE (R95), and its answer `Ok` (R94). That the tick is a step of its own, and the
fields `adv` and `result`, are the model's choice (log entries 9, 10, 13). -/
def Obligations.TickLowersNonZeroTimersByOne : Prop :=
  ∀ s : State, Running s → s.adv = some 0 → ∃ t, step s = .next t ∧
    t = { s with dt := t.dt, st := t.st, adv := none, result := some .ok } ∧
    t.dt.toNat = s.dt.toNat - 1 ∧ t.st.toNat = s.st.toNat - 1

/-- A whole ADVANCE none of whose steps faults: `n` steps of the interpreter, one after the other, with keys and
pending transactions untouched, and then one tick, after which the host has `Ok` (R94). For `n = 0` it is the spec's
own choice D18 (log entry 21). How a run is cut into steps is the model's choice (log entries 9, 10). -/
def Obligations.AdvanceRunsItsStepsAndTicksOnce : Prop :=
  ∀ (n : Nat) (s : State), s.adv = some n →
    (∀ k ≤ n, ∀ u : State, Sys2Proof.core.run k s = .next u → Running u) →
    (∀ k ≤ n, ∃ u : State, Sys2Proof.core.run k s = .next u ∧ u.adv = some (n - k) ∧ u.script = s.script ∧
      u.keys = s.keys) ∧
    (∀ k < n, ∀ u : State, Sys2Proof.core.run k s = .next u →
      Sys2Proof.core.run (k + 1) s = interpret { u with adv := some (n - k - 1) }) ∧
    ∃ u : State, Sys2Proof.core.run n s = .next u ∧
      Sys2Proof.core.run (n + 1) s = .next { u.tick with adv := none, result := some .ok }

/-- The start of ADVANCE: its `n` steps are ahead, or on a faulted machine the same error again and nothing else
(R94, R97; the latter the spec's own choice D17, log entry 12). `n = 0` is the spec's own choice D18 (log entry 21),
and that the start of ADVANCE is a step of its own is the model's (log entries 9, 10). -/
def Obligations.AdvanceBeginsUnlessFaulted : Prop :=
  ∀ (s : State) (n : Nat) (rest : List Transaction), s.adv = none → s.script = .advance n :: rest →
    (Running s → step s = .next { s with script := rest, adv := some n }) ∧
    (∀ c, s.fault = some c → step s = .next { s with script := rest, result := some (.error c) })

/-- With no ADVANCE in progress and no transaction to come, the machine is idle with all state held (R98); a faulted
one has stopped, which is the model's own end of a run (log entry 11). -/
def Obligations.MachineIsIdleWithoutTransactions : Prop :=
  ∀ s : State, s.adv = none → s.script = [] →
    (Running s → step s = .next s) ∧ (∀ c, s.fault = some c → step s = .fault (.stopped c))

/-- The faulted condition: a step from it leaves the whole machine but `K` as it is, unless it is RESET or a LOAD
that succeeds, and these clear the fault (R98, R179). That ADVANCE and a failed LOAD change nothing, and that
SET_KEYS is carried out, are the spec's own choices D17, D7 and D28 (log entries 12, 14, 27). -/
def Obligations.OnlyResetAndLoadLeaveTheFault : Prop :=
  ∀ (s t : State) (c : Cause), s.fault = some c → step s = .next t →
    (t = { s with keys := t.keys, adv := none, script := t.script, result := t.result }) ∨
    (Running t ∧ s.adv = none ∧ ∃ rest, s.script = .reset :: rest ∨
      ∃ rom, rom.length ≤ 3584 ∧ s.script = .load rom :: rest)

/-- RESET, from every state (R200, R34). The values of `I`, `PC`, `K` and `FAULT` are the spec's own choice D5 and
the font its choices D1 and D4, and the address 0x200 its choice D2 (log entries 1, 2, 4, 7). -/
def Obligations.ResetReinitialisesEverything : Prop :=
  RegistersAtReset State.reset ∧ (∀ a, State.reset.mem.read a = resetByte a) ∧
  ∀ (s : State) (rest : List Transaction), s.adv = none → s.script = .reset :: rest →
    ∃ t, step s = .next t ∧ RegistersAtReset t ∧ (∀ a, t.mem.read a = resetByte a) ∧ t.adv = none ∧
      t.script = rest ∧ t.draws = s.draws

/-- LOAD of an image that fits (R201). `PROG_BASE` is the spec's own choice D2, the values RESET gives are partly its
choice D5, and the font it leaves at 0x050 its choices D1 and D4 (log entries 2, 7, 1, 4). -/
def Obligations.LoadResetsAndCopiesTheImage : Prop :=
  ∀ (s : State) (rom : List Byte) (rest : List Transaction), s.adv = none → s.script = .load rom :: rest →
    rom.length ≤ 3584 →
    ∃ t, step s = .next t ∧ RegistersAtReset t ∧ t.adv = none ∧ t.script = rest ∧ t.result = some .ok ∧
      (∀ k : Fin rom.length, t.mem.read (0x200 + k.val) = rom[k]) ∧
      (∀ a, ¬ (0x200 ≤ a ∧ a < 0x200 + rom.length) → t.mem.read a = resetByte a)

/-- LOAD of an image that is too long (R202). That nothing changes is the spec's own choice D7, and the limit
3584 follows from its choice D2 (log entries 14, 2). -/
def Obligations.OversizedLoadChangesNothing : Prop :=
  ∀ (s : State) (rom : List Byte) (rest : List Transaction), s.adv = none → s.script = .load rom :: rest →
    3584 < rom.length → step s = .next { s with script := rest, result := some .loadError }

/-- SET_KEYS, faulted or not (R181; in the faulted condition the spec's own choice D28, log entry 27). -/
def Obligations.SetKeysReplacesTheKeyVector : Prop :=
  ∀ (s : State) (k : KeyVector) (rest : List Transaction), s.adv = none → s.script = .setKeys k :: rest →
    step s = .next { s with keys := k, script := rest }

/-! ## Invariants -/

/-- Memories in canonical form that read alike everywhere are the same list (log entry 6). -/
def Obligations.CanonicalMemoryIsDeterminedByItsBytes : Prop :=
  ∀ m m' : Memory, m.wf → m'.wf → (∀ a, m.read a = m'.read a) → m = m'

/-- The invariants hold after RESET. -/
def Obligations.ResetMeetsTheInvariants : Prop :=
  MemoryCanonical State.reset ∧ ControlBounded State.reset ∧ FaultEndedAdvance State.reset

/-- Every step keeps the canonical form of memory (log entry 6). -/
def Obligations.StepKeepsMemoryCanonical : Prop :=
  ∀ s t : State, MemoryCanonical s → step s = .next t → MemoryCanonical t

/-- Every step keeps `PC` at or below 0x10FE and every live stack entry at or below 4094, so that the 16-bit
arithmetic of `PC` never wraps (R24, an inference of the spec's own; log entry 23). -/
def Obligations.StepKeepsControlBounded : Prop :=
  ∀ s t : State, ControlBounded s → step s = .next t → ControlBounded t

/-- Every step keeps it that a faulted machine has no ADVANCE in progress. That a fault ends it at once is
the spec's own choice D17 (log entry 12). -/
def Obligations.StepKeepsFaultEndedAdvance : Prop :=
  ∀ s t : State, FaultEndedAdvance s → step s = .next t → FaultEndedAdvance t
end

