-- ==== Sys2Proof/Laws/Draw.lean ====
section
/-! SUPPORT. What the sprite draw does to each pixel and to the collision bit, said once for a pixel, a row
and a sprite. -/

namespace Sys2Proof.Machine

/-- The first `k` columns of a row byte placed at column `x0` cover column `x`. -/
def rowCovers (b : Byte) (x0 k x : Nat) : Bool := decide (x0 ≤ x ∧ x < x0 + k) && b.getLsbD (7 - (x - x0))

/-- The rows of a sprite placed at column `x0` and row `y0` cover column `x` of row `y`. -/
def spriteCovers (x0 : Nat) (bs : List Byte) (y0 y x : Nat) : Bool :=
  decide (y0 ≤ y ∧ y < y0 + bs.length) && rowCovers (bs.getD (y - y0) 0) x0 8 x

/-! ## One pixel -/

theorem drawPixel_pixel (d : Drawing) (px py : Nat) (y : Fin 32) (x : Fin 64) :
    (drawPixel d px py).1.pixel y x = (d.1.pixel y x ^^ decide (y.val = py ∧ x.val = px)) := by
  obtain ⟨y, hy⟩ := y
  obtain ⟨x, hx⟩ := x
  simp only [drawPixel, Framebuffer.pixel, Fin.getElem_fin]
  split
  · by_cases h1 : py = y
    · subst h1
      by_cases h2 : px = x
      · subst h2; simp
      · simp [h2, Ne.symm h2]
    · simp [h1, Ne.symm h1]
  · rename_i h
    have : ¬ (y = py ∧ x = px) := by rintro ⟨rfl, rfl⟩; exact h ⟨hx, hy⟩
    simp [this]

theorem drawPixel_collision (d : Drawing) (px py : Nat) :
    (drawPixel d px py).2 = true ↔
      d.2 = true ∨ ∃ (y : Fin 32) (x : Fin 64), d.1.pixel y x = true ∧ y.val = py ∧ x.val = px := by
  simp only [drawPixel, Framebuffer.pixel, Fin.getElem_fin]
  split
  · rename_i h
    simp only [Bool.or_eq_true]
    refine or_congr_right ⟨fun hp => ⟨⟨py, h.2⟩, ⟨px, h.1⟩, hp, rfl, rfl⟩, ?_⟩
    rintro ⟨y, x, hp, rfl, rfl⟩
    exact hp
  · rename_i h
    refine ⟨Or.inl, fun hp => hp.elim id ?_⟩
    rintro ⟨y, x, -, rfl, rfl⟩
    exact absurd ⟨x.isLt, y.isLt⟩ h

/-! ## One row -/

/-- The first `k` columns of a row. -/
def drawColumns (d : Drawing) (b : Byte) (x0 py k : Nat) : Drawing :=
  (List.range k).foldl (fun e c => if b.getLsbD (7 - c) then drawPixel e (x0 + c) py else e) d

theorem drawRow_eq (d : Drawing) (b : Byte) (x0 py : Nat) : drawRow d b x0 py = drawColumns d b x0 py 8 := rfl

theorem drawColumns_succ (d : Drawing) (b : Byte) (x0 py k : Nat) :
    drawColumns d b x0 py (k + 1) =
      if b.getLsbD (7 - k) then drawPixel (drawColumns d b x0 py k) (x0 + k) py
      else drawColumns d b x0 py k := by
  rw [drawColumns, List.range_succ, List.foldl_append]; rfl

theorem rowCovers_zero (b : Byte) (x0 x : Nat) : rowCovers b x0 0 x = false := by
  have : ¬ (x0 ≤ x ∧ x < x0 + 0) := by omega
  rw [rowCovers, decide_eq_false this, Bool.false_and]

theorem rowCovers_succ (b : Byte) (x0 k x : Nat) :
    rowCovers b x0 (k + 1) x = (rowCovers b x0 k x ^^ (b.getLsbD (7 - k) && decide (x = x0 + k))) := by
  unfold rowCovers
  by_cases hx : x = x0 + k
  · subst hx; simp
  · have : (x0 ≤ x ∧ x < x0 + (k + 1)) ↔ (x0 ≤ x ∧ x < x0 + k) := by omega
    simp [hx, this]

theorem drawColumns_pixel (d : Drawing) (b : Byte) (x0 py k : Nat) (y : Fin 32) (x : Fin 64) :
    (drawColumns d b x0 py k).1.pixel y x =
      (d.1.pixel y x ^^ (decide (y.val = py) && rowCovers b x0 k x.val)) := by
  induction k with
  | zero => simp [drawColumns, rowCovers_zero]
  | succ k ih =>
    rw [drawColumns_succ, rowCovers_succ]
    by_cases hb : b.getLsbD (7 - k) = true
    · rw [if_pos hb, drawPixel_pixel, ih, hb]
      by_cases hy : y.val = py <;> by_cases hx : x.val = x0 + k <;> simp [hy, hx]
    · rw [if_neg hb, ih, Bool.eq_false_iff.mpr hb]; simp

theorem drawColumns_collision (d : Drawing) (b : Byte) (x0 py k : Nat) :
    (drawColumns d b x0 py k).2 = true ↔
      d.2 = true ∨ ∃ (y : Fin 32) (x : Fin 64),
        d.1.pixel y x = true ∧ y.val = py ∧ rowCovers b x0 k x.val = true := by
  induction k with
  | zero => simp [drawColumns, rowCovers_zero]
  | succ k ih =>
    rw [drawColumns_succ]
    by_cases hb : b.getLsbD (7 - k) = true
    · rw [if_pos hb, drawPixel_collision, ih, or_assoc]
      refine or_congr_right ?_
      simp only [drawColumns_pixel, rowCovers_succ, hb, Bool.true_and]
      constructor
      · rintro (⟨y, x, hp, hy, hr⟩ | ⟨y, x, hp, hy, hx⟩)
        · refine ⟨y, x, hp, hy, ?_⟩
          have : x.val ≠ x0 + k := by simp [rowCovers] at hr; omega
          simp [hr, this]
        · refine ⟨y, x, ?_, hy, ?_⟩ <;> simp [rowCovers, hy, hx] at hp ⊢
          exact hp
      · rintro ⟨y, x, hp, hy, hr⟩
        by_cases hx : x.val = x0 + k
        · refine Or.inr ⟨y, x, ?_, hy, hx⟩
          simp [rowCovers, hx, hp]
        · exact Or.inl ⟨y, x, hp, hy, by simpa [hx] using hr⟩
    · rw [if_neg hb, ih]
      simp only [rowCovers_succ, Bool.eq_false_iff.mpr hb, Bool.false_and, Bool.xor_false]

/-! ## The sprite -/

theorem spriteCovers_cons (x0 : Nat) (b : Byte) (bs : List Byte) (y0 y x : Nat) :
    spriteCovers x0 (b :: bs) y0 y x =
      ((decide (y = y0) && rowCovers b x0 8 x) ^^ spriteCovers x0 bs (y0 + 1) y x) := by
  unfold spriteCovers
  by_cases hy : y = y0
  · subst hy; simp
  · by_cases h : y0 + 1 ≤ y
    · have h1 : y - y0 = (y - (y0 + 1)) + 1 := by omega
      have h2 : (y0 ≤ y ∧ y < y0 + (b :: bs).length) ↔ (y0 + 1 ≤ y ∧ y < y0 + 1 + bs.length) := by
        simp only [List.length_cons]; omega
      simp only [h1, h2, List.getD_cons_succ, hy, decide_false, Bool.false_and, Bool.false_xor]
    · have h1 : ¬ (y0 ≤ y ∧ y < y0 + (b :: bs).length) := by omega
      have h2 : ¬ (y0 + 1 ≤ y ∧ y < y0 + 1 + bs.length) := by omega
      rw [decide_eq_false h1, decide_eq_false h2, decide_eq_false hy]; rfl

/-- Every pixel of the display after a draw: flipped exactly where the sprite covers it. -/
theorem drawSprite_pixel (bs : List Byte) (d : Drawing) (x0 y0 : Nat) (y : Fin 32) (x : Fin 64) :
    (drawSprite d x0 bs y0).1.pixel y x = (d.1.pixel y x ^^ spriteCovers x0 bs y0 y.val x.val) := by
  induction bs generalizing d y0 with
  | nil =>
    have : ¬ (y0 ≤ y.val ∧ y.val < y0) := by omega
    simp [drawSprite, spriteCovers, this]
  | cons b bs ih =>
    rw [drawSprite, ih, drawRow_eq, drawColumns_pixel, spriteCovers_cons, Bool.xor_assoc]

/-- The collision bit after a draw: some pixel was set where the sprite covers it. -/
theorem drawSprite_collision (bs : List Byte) (d : Drawing) (x0 y0 : Nat) :
    (drawSprite d x0 bs y0).2 = true ↔
      d.2 = true ∨ ∃ (y : Fin 32) (x : Fin 64),
        d.1.pixel y x = true ∧ spriteCovers x0 bs y0 y.val x.val = true := by
  induction bs generalizing d y0 with
  | nil => simp [drawSprite, spriteCovers]
  | cons b bs ih =>
    rw [drawSprite, ih, drawRow_eq, drawColumns_collision, or_assoc]
    refine or_congr_right ?_
    simp only [drawColumns_pixel, spriteCovers_cons]
    have later : ∀ y x : Nat, spriteCovers x0 bs (y0 + 1) y x = true → y ≠ y0 := by
      intro y x h; simp [spriteCovers] at h; omega
    constructor
    · rintro (⟨y, x, hp, hy, hr⟩ | ⟨y, x, hp, hs⟩)
      · have : spriteCovers x0 bs (y0 + 1) y.val x.val = false := by
          by_contra hc; exact later _ _ (by simpa using hc) hy
        exact ⟨y, x, hp, by simp [hy, hr, hy ▸ this]⟩
      · have hy := later _ _ hs
        exact ⟨y, x, by simpa [hy] using hp, by simp [hs, hy]⟩
    · rintro ⟨y, x, hp, hs⟩
      by_cases hy : y.val = y0
      · have : spriteCovers x0 bs (y0 + 1) y.val x.val = false := by
          by_contra hc; exact later _ _ (by simpa using hc) hy
        exact Or.inl ⟨y, x, hp, hy, by simpa [hy, hy ▸ this] using hs⟩
      · exact Or.inr ⟨y, x, by simpa [hy] using hp, by simpa [hy] using hs⟩

/-- Two framebuffers with the same pixels are the same. -/
theorem Framebuffer.ext_pixel {f g : Framebuffer} (h : ∀ y x, f.pixel y x = g.pixel y x) : f = g := by
  refine Vector.ext fun y hy => Vector.ext fun x hx => ?_
  exact h ⟨y, hy⟩ ⟨x, hx⟩

theorem Framebuffer.pixel_clear (y : Fin 32) (x : Fin 64) : Framebuffer.clear.pixel y x = false := by
  simp [Framebuffer.clear, Framebuffer.pixel]

/-- The bytes of the sprite, one for each row. -/
theorem Memory.length_readBytes (m : Memory) (a n : Nat) : (m.readBytes a n).length = n := by
  simp [Memory.readBytes]

theorem Memory.getD_readBytes (m : Memory) (a n k : Nat) (h : k < n) :
    (m.readBytes a n).getD k 0 = m.read (a + k) := by
  simp [Memory.readBytes, h]

end Sys2Proof.Machine
end

