-- ==== Sys2Proof/Laws/Memory.lean ====
section
/-! SUPPORT. The laws of memory: what a read sees after a write, the canonical form is kept, and canonical
memories with equal bytes are equal. -/

namespace Sys2Proof.Machine.Memory

/-! ## Reading -/

@[simp] theorem read_nil (a : Nat) : read [] a = background a := rfl

theorem read_cons (b : Nat) (v : Byte) (m : Memory) (a : Nat) :
    read ((b, v) :: m) a = if b = a then v else read m a := rfl

/-- An address with no cell reads as the reset contents. -/
theorem read_unlisted (m : Memory) (a : Nat) (h : ∀ c ∈ m, c.1 ≠ a) : read m a = background a := by
  induction m with
  | nil => rfl
  | cons c m ih =>
    obtain ⟨b, v⟩ := c
    rw [read_cons, if_neg (h (b, v) (by simp)), ih fun c hc => h c (by simp [hc])]

theorem read_erase_same (m : Memory) (a : Nat) : read (m.erase a) a = background a :=
  read_unlisted _ _ fun c hc => by simpa using (List.mem_filter.mp hc).2

theorem read_erase_other (m : Memory) (a b : Nat) (h : a ≠ b) : read (m.erase a) b = read m b := by
  induction m with
  | nil => rfl
  | cons c m ih =>
    obtain ⟨d, v⟩ := c
    simp only [erase] at ih ⊢
    rw [List.filter_cons]
    split
    · rw [read_cons, read_cons, ih]
    · rename_i hd
      have hda : d = a := by simpa using hd
      rw [ih, read_cons, if_neg (by omega)]

theorem read_insert (c : Host.Cell) (m : Memory) (a : Nat) (h : ∀ d ∈ m, d.1 ≠ c.1) :
    read (insert c m) a = if c.1 = a then c.2 else read m a := by
  induction m with
  | nil => rfl
  | cons d m ih =>
    obtain ⟨e, v⟩ := d
    rw [insert]
    split
    · rfl
    · rw [read_cons, ih fun d hd => h d (by simp [hd]), read_cons]
      have := h (e, v) (by simp)
      split <;> split <;> simp_all

theorem erase_unlisted (m : Memory) (a : Nat) : ∀ c ∈ m.erase a, c.1 ≠ a := fun c hc => by
  simpa using (List.mem_filter.mp hc).2

/-- A write is seen at its own address and nowhere else, in every list of cells. -/
theorem read_write (m : Memory) (a : Nat) (v : Byte) (b : Nat) :
    read (m.write a v) b = if a = b then v else read m b := by
  rw [write]
  split
  · rename_i hv
    split
    · rename_i hab; subst hab; rw [read_erase_same, hv]
    · exact read_erase_other _ _ _ ‹_›
  · rw [read_insert _ _ _ (erase_unlisted m a)]
    split
    · rfl
    · exact read_erase_other _ _ _ ‹_›

/-- Bytes written at ascending addresses are read back there, and every other address is as before. -/
theorem read_writeBytes (bs : List Byte) (m : Memory) (a b : Nat) :
    read (m.writeBytes a bs) b =
      if h : a ≤ b ∧ b < a + bs.length then bs[b - a]'(by omega) else read m b := by
  induction bs generalizing m a with
  | nil =>
    have : ¬ (a ≤ b ∧ b < a + ([] : List Byte).length) := by simp
    rw [dif_neg this]; rfl
  | cons c cs ih =>
    rw [writeBytes, ih]
    by_cases hab : a = b
    · subst hab
      have h1 : ¬ (a + 1 ≤ a ∧ a < a + 1 + cs.length) := by omega
      have h2 : a ≤ a ∧ a < a + (c :: cs).length := by simp
      rw [dif_neg h1, dif_pos h2, read_write, if_pos rfl]
      simp
    · rw [read_write, if_neg hab]
      by_cases h : a + 1 ≤ b ∧ b < a + 1 + cs.length
      · have h2 : a ≤ b ∧ b < a + (c :: cs).length := by simp; omega
        rw [dif_pos h, dif_pos h2]
        have : b - a = (b - (a + 1)) + 1 := by omega
        simp [this]
      · have h2 : ¬ (a ≤ b ∧ b < a + (c :: cs).length) := by simp; omega
        rw [dif_neg h, dif_neg h2]

/-- What a byte inside the written bytes reads as. -/
theorem read_writeBytes_inside (bs : List Byte) (m : Memory) (a k : Nat) (h : k < bs.length) :
    read (m.writeBytes a bs) (a + k) = bs[k] := by
  rw [read_writeBytes, dif_pos (by omega)]
  simp

/-- An address outside the written bytes reads as before. -/
theorem read_writeBytes_outside (bs : List Byte) (m : Memory) (a b : Nat)
    (h : ¬ (a ≤ b ∧ b < a + bs.length)) : read (m.writeBytes a bs) b = read m b := by
  rw [read_writeBytes, dif_neg h]

/-! ## The canonical form -/

@[simp] theorem wf_nil : wf [] := by decide

theorem wf_erase {m : Memory} (h : m.wf) (a : Nat) : (m.erase a).wf :=
  ⟨h.1.filter _, fun c hc => h.2 c (List.mem_filter.mp hc).1⟩

theorem mem_insert {c d : Host.Cell} {m : Memory} : d ∈ insert c m ↔ d = c ∨ d ∈ m := by
  induction m with
  | nil => simp [insert]
  | cons e m ih =>
    rw [insert]
    split
    · simp
    · simp only [List.mem_cons, ih]; tauto

theorem wf_insert {c : Host.Cell} {m : Memory} (h : m.wf) (hc : c.1 < Config.memSize)
    (hb : c.2 ≠ background c.1) (hm : ∀ d ∈ m, d.1 ≠ c.1) : (insert c m).wf := by
  refine ⟨?_, fun d hd => (mem_insert.mp hd).elim (fun e => e ▸ ⟨hc, hb⟩) (h.2 d)⟩
  have hs := h.1
  clear h
  induction m with
  | nil => simp [insert]
  | cons e m ih =>
    have he := List.pairwise_cons.mp hs
    have hne : e.1 ≠ c.1 := hm e (by simp)
    rw [insert]
    split
    · refine List.pairwise_cons.mpr ⟨fun d hd => ?_, hs⟩
      rcases List.mem_cons.mp hd with rfl | hd
      · assumption
      · exact Nat.lt_trans ‹_› (he.1 d hd)
    · refine List.pairwise_cons.mpr ⟨fun d hd => ?_, ih (fun d hd => hm d (by simp [hd])) he.2⟩
      rcases mem_insert.mp hd with rfl | hd
      · omega
      · exact he.1 d hd

/-- A write to an address that exists keeps the canonical form. -/
theorem wf_write {m : Memory} (h : m.wf) {a : Nat} (ha : a < Config.memSize) (v : Byte) :
    (m.write a v).wf := by
  rw [write]
  split
  · exact wf_erase h a
  · exact wf_insert (wf_erase h a) ha ‹_› (erase_unlisted m a)

theorem wf_writeBytes (bs : List Byte) {m : Memory} (h : m.wf) {a : Nat}
    (ha : a + bs.length ≤ Config.memSize) : (m.writeBytes a bs).wf := by
  induction bs generalizing m a with
  | nil => exact h
  | cons b bs ih =>
    simp only [List.length_cons] at ha
    exact ih (wf_write h (by omega) b) (by omega)

/-! ## Canonical memories are determined by their bytes -/

/-- The first cell of a canonical memory is the least address that differs from the reset contents. -/
theorem head_le_of_differs {b : Nat} {v : Byte} {m : Memory} (h : wf ((b, v) :: m)) {a : Nat}
    (ha : read ((b, v) :: m) a ≠ background a) : b ≤ a := by
  by_contra hlt
  refine ha (read_unlisted _ _ fun c hc => ?_)
  rcases List.mem_cons.mp hc with rfl | hc
  · show b ≠ a; omega
  · have := (List.pairwise_cons.mp h.1).1 c hc
    simp only at this; omega

theorem wf_tail {c : Host.Cell} {m : Memory} (h : wf (c :: m)) : wf m :=
  ⟨(List.pairwise_cons.mp h.1).2, fun d hd => h.2 d (by simp [hd])⟩

theorem read_head_differs {b : Nat} {v : Byte} {m : Memory} (h : wf ((b, v) :: m)) :
    read ((b, v) :: m) b ≠ background b := by
  rw [read_cons, if_pos rfl]; exact (h.2 (b, v) (by simp)).2

theorem read_tail_of_head {b : Nat} {v : Byte} {m : Memory} (h : wf ((b, v) :: m)) (a : Nat) :
    read m a = if b = a then background a else read ((b, v) :: m) a := by
  split
  · rename_i hba; subst hba
    refine read_unlisted _ _ fun c hc => ?_
    have := (List.pairwise_cons.mp h.1).1 c hc
    simp only at this; omega
  · rw [read_cons, if_neg ‹_›]

end Sys2Proof.Machine.Memory
end

