-- ==== Sys2Proof/Laws/State.lean ====
section
/-! SUPPORT. One lemma per field per update of the state, true by rfl, so that no proof unfolds a record
update. -/

namespace Sys2Proof.Machine

/-! ### `State.setReg` -/

@[simp] theorem State.setReg_v (s : State) (x : Reg) (b : Byte) : (s.setReg x b).v = s.v.set x b := rfl
@[simp] theorem State.setReg_i (s : State) (x : Reg) (b : Byte) : (s.setReg x b).i = s.i := rfl
@[simp] theorem State.setReg_pc (s : State) (x : Reg) (b : Byte) : (s.setReg x b).pc = s.pc := rfl
@[simp] theorem State.setReg_sp (s : State) (x : Reg) (b : Byte) : (s.setReg x b).sp = s.sp := rfl
@[simp] theorem State.setReg_stk (s : State) (x : Reg) (b : Byte) : (s.setReg x b).stk = s.stk := rfl
@[simp] theorem State.setReg_dt (s : State) (x : Reg) (b : Byte) : (s.setReg x b).dt = s.dt := rfl
@[simp] theorem State.setReg_st (s : State) (x : Reg) (b : Byte) : (s.setReg x b).st = s.st := rfl
@[simp] theorem State.setReg_fb (s : State) (x : Reg) (b : Byte) : (s.setReg x b).fb = s.fb := rfl
@[simp] theorem State.setReg_keys (s : State) (x : Reg) (b : Byte) : (s.setReg x b).keys = s.keys := rfl
@[simp] theorem State.setReg_fault (s : State) (x : Reg) (b : Byte) : (s.setReg x b).fault = s.fault := rfl
@[simp] theorem State.setReg_mem (s : State) (x : Reg) (b : Byte) : (s.setReg x b).mem = s.mem := rfl
@[simp] theorem State.setReg_draws (s : State) (x : Reg) (b : Byte) : (s.setReg x b).draws = s.draws := rfl
@[simp] theorem State.setReg_adv (s : State) (x : Reg) (b : Byte) : (s.setReg x b).adv = s.adv := rfl
@[simp] theorem State.setReg_script (s : State) (x : Reg) (b : Byte) : (s.setReg x b).script = s.script := rfl
@[simp] theorem State.setReg_result (s : State) (x : Reg) (b : Byte) : (s.setReg x b).result = s.result := rfl

/-! ### `State.setRegs` -/

@[simp] theorem State.setRegs_v (s : State) (w : Vector Byte 16) : (s.setRegs w).v = w := rfl
@[simp] theorem State.setRegs_i (s : State) (w : Vector Byte 16) : (s.setRegs w).i = s.i := rfl
@[simp] theorem State.setRegs_pc (s : State) (w : Vector Byte 16) : (s.setRegs w).pc = s.pc := rfl
@[simp] theorem State.setRegs_sp (s : State) (w : Vector Byte 16) : (s.setRegs w).sp = s.sp := rfl
@[simp] theorem State.setRegs_stk (s : State) (w : Vector Byte 16) : (s.setRegs w).stk = s.stk := rfl
@[simp] theorem State.setRegs_dt (s : State) (w : Vector Byte 16) : (s.setRegs w).dt = s.dt := rfl
@[simp] theorem State.setRegs_st (s : State) (w : Vector Byte 16) : (s.setRegs w).st = s.st := rfl
@[simp] theorem State.setRegs_fb (s : State) (w : Vector Byte 16) : (s.setRegs w).fb = s.fb := rfl
@[simp] theorem State.setRegs_keys (s : State) (w : Vector Byte 16) : (s.setRegs w).keys = s.keys := rfl
@[simp] theorem State.setRegs_fault (s : State) (w : Vector Byte 16) : (s.setRegs w).fault = s.fault := rfl
@[simp] theorem State.setRegs_mem (s : State) (w : Vector Byte 16) : (s.setRegs w).mem = s.mem := rfl
@[simp] theorem State.setRegs_draws (s : State) (w : Vector Byte 16) : (s.setRegs w).draws = s.draws := rfl
@[simp] theorem State.setRegs_adv (s : State) (w : Vector Byte 16) : (s.setRegs w).adv = s.adv := rfl
@[simp] theorem State.setRegs_script (s : State) (w : Vector Byte 16) : (s.setRegs w).script = s.script := rfl
@[simp] theorem State.setRegs_result (s : State) (w : Vector Byte 16) : (s.setRegs w).result = s.result := rfl

/-! ### `State.setI` -/

@[simp] theorem State.setI_v (s : State) (a : Word16) : (s.setI a).v = s.v := rfl
@[simp] theorem State.setI_i (s : State) (a : Word16) : (s.setI a).i = a := rfl
@[simp] theorem State.setI_pc (s : State) (a : Word16) : (s.setI a).pc = s.pc := rfl
@[simp] theorem State.setI_sp (s : State) (a : Word16) : (s.setI a).sp = s.sp := rfl
@[simp] theorem State.setI_stk (s : State) (a : Word16) : (s.setI a).stk = s.stk := rfl
@[simp] theorem State.setI_dt (s : State) (a : Word16) : (s.setI a).dt = s.dt := rfl
@[simp] theorem State.setI_st (s : State) (a : Word16) : (s.setI a).st = s.st := rfl
@[simp] theorem State.setI_fb (s : State) (a : Word16) : (s.setI a).fb = s.fb := rfl
@[simp] theorem State.setI_keys (s : State) (a : Word16) : (s.setI a).keys = s.keys := rfl
@[simp] theorem State.setI_fault (s : State) (a : Word16) : (s.setI a).fault = s.fault := rfl
@[simp] theorem State.setI_mem (s : State) (a : Word16) : (s.setI a).mem = s.mem := rfl
@[simp] theorem State.setI_draws (s : State) (a : Word16) : (s.setI a).draws = s.draws := rfl
@[simp] theorem State.setI_adv (s : State) (a : Word16) : (s.setI a).adv = s.adv := rfl
@[simp] theorem State.setI_script (s : State) (a : Word16) : (s.setI a).script = s.script := rfl
@[simp] theorem State.setI_result (s : State) (a : Word16) : (s.setI a).result = s.result := rfl

/-! ### `State.setDt` -/

@[simp] theorem State.setDt_v (s : State) (b : Byte) : (s.setDt b).v = s.v := rfl
@[simp] theorem State.setDt_i (s : State) (b : Byte) : (s.setDt b).i = s.i := rfl
@[simp] theorem State.setDt_pc (s : State) (b : Byte) : (s.setDt b).pc = s.pc := rfl
@[simp] theorem State.setDt_sp (s : State) (b : Byte) : (s.setDt b).sp = s.sp := rfl
@[simp] theorem State.setDt_stk (s : State) (b : Byte) : (s.setDt b).stk = s.stk := rfl
@[simp] theorem State.setDt_dt (s : State) (b : Byte) : (s.setDt b).dt = b := rfl
@[simp] theorem State.setDt_st (s : State) (b : Byte) : (s.setDt b).st = s.st := rfl
@[simp] theorem State.setDt_fb (s : State) (b : Byte) : (s.setDt b).fb = s.fb := rfl
@[simp] theorem State.setDt_keys (s : State) (b : Byte) : (s.setDt b).keys = s.keys := rfl
@[simp] theorem State.setDt_fault (s : State) (b : Byte) : (s.setDt b).fault = s.fault := rfl
@[simp] theorem State.setDt_mem (s : State) (b : Byte) : (s.setDt b).mem = s.mem := rfl
@[simp] theorem State.setDt_draws (s : State) (b : Byte) : (s.setDt b).draws = s.draws := rfl
@[simp] theorem State.setDt_adv (s : State) (b : Byte) : (s.setDt b).adv = s.adv := rfl
@[simp] theorem State.setDt_script (s : State) (b : Byte) : (s.setDt b).script = s.script := rfl
@[simp] theorem State.setDt_result (s : State) (b : Byte) : (s.setDt b).result = s.result := rfl

/-! ### `State.setSt` -/

@[simp] theorem State.setSt_v (s : State) (b : Byte) : (s.setSt b).v = s.v := rfl
@[simp] theorem State.setSt_i (s : State) (b : Byte) : (s.setSt b).i = s.i := rfl
@[simp] theorem State.setSt_pc (s : State) (b : Byte) : (s.setSt b).pc = s.pc := rfl
@[simp] theorem State.setSt_sp (s : State) (b : Byte) : (s.setSt b).sp = s.sp := rfl
@[simp] theorem State.setSt_stk (s : State) (b : Byte) : (s.setSt b).stk = s.stk := rfl
@[simp] theorem State.setSt_dt (s : State) (b : Byte) : (s.setSt b).dt = s.dt := rfl
@[simp] theorem State.setSt_st (s : State) (b : Byte) : (s.setSt b).st = b := rfl
@[simp] theorem State.setSt_fb (s : State) (b : Byte) : (s.setSt b).fb = s.fb := rfl
@[simp] theorem State.setSt_keys (s : State) (b : Byte) : (s.setSt b).keys = s.keys := rfl
@[simp] theorem State.setSt_fault (s : State) (b : Byte) : (s.setSt b).fault = s.fault := rfl
@[simp] theorem State.setSt_mem (s : State) (b : Byte) : (s.setSt b).mem = s.mem := rfl
@[simp] theorem State.setSt_draws (s : State) (b : Byte) : (s.setSt b).draws = s.draws := rfl
@[simp] theorem State.setSt_adv (s : State) (b : Byte) : (s.setSt b).adv = s.adv := rfl
@[simp] theorem State.setSt_script (s : State) (b : Byte) : (s.setSt b).script = s.script := rfl
@[simp] theorem State.setSt_result (s : State) (b : Byte) : (s.setSt b).result = s.result := rfl

/-! ### `State.setFb` -/

@[simp] theorem State.setFb_v (s : State) (f : Framebuffer) : (s.setFb f).v = s.v := rfl
@[simp] theorem State.setFb_i (s : State) (f : Framebuffer) : (s.setFb f).i = s.i := rfl
@[simp] theorem State.setFb_pc (s : State) (f : Framebuffer) : (s.setFb f).pc = s.pc := rfl
@[simp] theorem State.setFb_sp (s : State) (f : Framebuffer) : (s.setFb f).sp = s.sp := rfl
@[simp] theorem State.setFb_stk (s : State) (f : Framebuffer) : (s.setFb f).stk = s.stk := rfl
@[simp] theorem State.setFb_dt (s : State) (f : Framebuffer) : (s.setFb f).dt = s.dt := rfl
@[simp] theorem State.setFb_st (s : State) (f : Framebuffer) : (s.setFb f).st = s.st := rfl
@[simp] theorem State.setFb_fb (s : State) (f : Framebuffer) : (s.setFb f).fb = f := rfl
@[simp] theorem State.setFb_keys (s : State) (f : Framebuffer) : (s.setFb f).keys = s.keys := rfl
@[simp] theorem State.setFb_fault (s : State) (f : Framebuffer) : (s.setFb f).fault = s.fault := rfl
@[simp] theorem State.setFb_mem (s : State) (f : Framebuffer) : (s.setFb f).mem = s.mem := rfl
@[simp] theorem State.setFb_draws (s : State) (f : Framebuffer) : (s.setFb f).draws = s.draws := rfl
@[simp] theorem State.setFb_adv (s : State) (f : Framebuffer) : (s.setFb f).adv = s.adv := rfl
@[simp] theorem State.setFb_script (s : State) (f : Framebuffer) : (s.setFb f).script = s.script := rfl
@[simp] theorem State.setFb_result (s : State) (f : Framebuffer) : (s.setFb f).result = s.result := rfl

/-! ### `State.goto` -/

@[simp] theorem State.goto_v (s : State) (a : Word16) : (s.goto a).v = s.v := rfl
@[simp] theorem State.goto_i (s : State) (a : Word16) : (s.goto a).i = s.i := rfl
@[simp] theorem State.goto_pc (s : State) (a : Word16) : (s.goto a).pc = a := rfl
@[simp] theorem State.goto_sp (s : State) (a : Word16) : (s.goto a).sp = s.sp := rfl
@[simp] theorem State.goto_stk (s : State) (a : Word16) : (s.goto a).stk = s.stk := rfl
@[simp] theorem State.goto_dt (s : State) (a : Word16) : (s.goto a).dt = s.dt := rfl
@[simp] theorem State.goto_st (s : State) (a : Word16) : (s.goto a).st = s.st := rfl
@[simp] theorem State.goto_fb (s : State) (a : Word16) : (s.goto a).fb = s.fb := rfl
@[simp] theorem State.goto_keys (s : State) (a : Word16) : (s.goto a).keys = s.keys := rfl
@[simp] theorem State.goto_fault (s : State) (a : Word16) : (s.goto a).fault = s.fault := rfl
@[simp] theorem State.goto_mem (s : State) (a : Word16) : (s.goto a).mem = s.mem := rfl
@[simp] theorem State.goto_draws (s : State) (a : Word16) : (s.goto a).draws = s.draws := rfl
@[simp] theorem State.goto_adv (s : State) (a : Word16) : (s.goto a).adv = s.adv := rfl
@[simp] theorem State.goto_script (s : State) (a : Word16) : (s.goto a).script = s.script := rfl
@[simp] theorem State.goto_result (s : State) (a : Word16) : (s.goto a).result = s.result := rfl

/-! ### `State.storeAtI` -/

@[simp] theorem State.storeAtI_v (s : State) (bs : List Byte) : (s.storeAtI bs).v = s.v := rfl
@[simp] theorem State.storeAtI_i (s : State) (bs : List Byte) : (s.storeAtI bs).i = s.i := rfl
@[simp] theorem State.storeAtI_pc (s : State) (bs : List Byte) : (s.storeAtI bs).pc = s.pc := rfl
@[simp] theorem State.storeAtI_sp (s : State) (bs : List Byte) : (s.storeAtI bs).sp = s.sp := rfl
@[simp] theorem State.storeAtI_stk (s : State) (bs : List Byte) : (s.storeAtI bs).stk = s.stk := rfl
@[simp] theorem State.storeAtI_dt (s : State) (bs : List Byte) : (s.storeAtI bs).dt = s.dt := rfl
@[simp] theorem State.storeAtI_st (s : State) (bs : List Byte) : (s.storeAtI bs).st = s.st := rfl
@[simp] theorem State.storeAtI_fb (s : State) (bs : List Byte) : (s.storeAtI bs).fb = s.fb := rfl
@[simp] theorem State.storeAtI_keys (s : State) (bs : List Byte) : (s.storeAtI bs).keys = s.keys := rfl
@[simp] theorem State.storeAtI_fault (s : State) (bs : List Byte) : (s.storeAtI bs).fault = s.fault := rfl
@[simp] theorem State.storeAtI_mem (s : State) (bs : List Byte) : (s.storeAtI bs).mem = s.mem.writeBytes (s.indexAddr 0) bs := rfl
@[simp] theorem State.storeAtI_draws (s : State) (bs : List Byte) : (s.storeAtI bs).draws = s.draws := rfl
@[simp] theorem State.storeAtI_adv (s : State) (bs : List Byte) : (s.storeAtI bs).adv = s.adv := rfl
@[simp] theorem State.storeAtI_script (s : State) (bs : List Byte) : (s.storeAtI bs).script = s.script := rfl
@[simp] theorem State.storeAtI_result (s : State) (bs : List Byte) : (s.storeAtI bs).result = s.result := rfl

/-! ### `State.endAdvance` -/

@[simp] theorem State.endAdvance_v (s : State) (a : Answer) : (s.endAdvance a).v = s.v := rfl
@[simp] theorem State.endAdvance_i (s : State) (a : Answer) : (s.endAdvance a).i = s.i := rfl
@[simp] theorem State.endAdvance_pc (s : State) (a : Answer) : (s.endAdvance a).pc = s.pc := rfl
@[simp] theorem State.endAdvance_sp (s : State) (a : Answer) : (s.endAdvance a).sp = s.sp := rfl
@[simp] theorem State.endAdvance_stk (s : State) (a : Answer) : (s.endAdvance a).stk = s.stk := rfl
@[simp] theorem State.endAdvance_dt (s : State) (a : Answer) : (s.endAdvance a).dt = s.dt := rfl
@[simp] theorem State.endAdvance_st (s : State) (a : Answer) : (s.endAdvance a).st = s.st := rfl
@[simp] theorem State.endAdvance_fb (s : State) (a : Answer) : (s.endAdvance a).fb = s.fb := rfl
@[simp] theorem State.endAdvance_keys (s : State) (a : Answer) : (s.endAdvance a).keys = s.keys := rfl
@[simp] theorem State.endAdvance_fault (s : State) (a : Answer) : (s.endAdvance a).fault = s.fault := rfl
@[simp] theorem State.endAdvance_mem (s : State) (a : Answer) : (s.endAdvance a).mem = s.mem := rfl
@[simp] theorem State.endAdvance_draws (s : State) (a : Answer) : (s.endAdvance a).draws = s.draws := rfl
@[simp] theorem State.endAdvance_adv (s : State) (a : Answer) : (s.endAdvance a).adv = none := rfl
@[simp] theorem State.endAdvance_script (s : State) (a : Answer) : (s.endAdvance a).script = s.script := rfl
@[simp] theorem State.endAdvance_result (s : State) (a : Answer) : (s.endAdvance a).result = some a := rfl

/-! ### `State.raise` -/

@[simp] theorem State.raise_v (s : State) (c : Cause) : (s.raise c).v = s.v := rfl
@[simp] theorem State.raise_i (s : State) (c : Cause) : (s.raise c).i = s.i := rfl
@[simp] theorem State.raise_pc (s : State) (c : Cause) : (s.raise c).pc = s.pc := rfl
@[simp] theorem State.raise_sp (s : State) (c : Cause) : (s.raise c).sp = s.sp := rfl
@[simp] theorem State.raise_stk (s : State) (c : Cause) : (s.raise c).stk = s.stk := rfl
@[simp] theorem State.raise_dt (s : State) (c : Cause) : (s.raise c).dt = s.dt := rfl
@[simp] theorem State.raise_st (s : State) (c : Cause) : (s.raise c).st = s.st := rfl
@[simp] theorem State.raise_fb (s : State) (c : Cause) : (s.raise c).fb = s.fb := rfl
@[simp] theorem State.raise_keys (s : State) (c : Cause) : (s.raise c).keys = s.keys := rfl
@[simp] theorem State.raise_fault (s : State) (c : Cause) : (s.raise c).fault = some c := rfl
@[simp] theorem State.raise_mem (s : State) (c : Cause) : (s.raise c).mem = s.mem := rfl
@[simp] theorem State.raise_draws (s : State) (c : Cause) : (s.raise c).draws = s.draws := rfl
@[simp] theorem State.raise_adv (s : State) (c : Cause) : (s.raise c).adv = none := rfl
@[simp] theorem State.raise_script (s : State) (c : Cause) : (s.raise c).script = s.script := rfl
@[simp] theorem State.raise_result (s : State) (c : Cause) : (s.raise c).result = some (.error c) := rfl

/-! ### `State.tick` -/

@[simp] theorem State.tick_v (s : State) : (s.tick).v = s.v := rfl
@[simp] theorem State.tick_i (s : State) : (s.tick).i = s.i := rfl
@[simp] theorem State.tick_pc (s : State) : (s.tick).pc = s.pc := rfl
@[simp] theorem State.tick_sp (s : State) : (s.tick).sp = s.sp := rfl
@[simp] theorem State.tick_stk (s : State) : (s.tick).stk = s.stk := rfl
@[simp] theorem State.tick_dt (s : State) : (s.tick).dt = tickTimer s.dt := rfl
@[simp] theorem State.tick_st (s : State) : (s.tick).st = tickTimer s.st := rfl
@[simp] theorem State.tick_fb (s : State) : (s.tick).fb = s.fb := rfl
@[simp] theorem State.tick_keys (s : State) : (s.tick).keys = s.keys := rfl
@[simp] theorem State.tick_fault (s : State) : (s.tick).fault = s.fault := rfl
@[simp] theorem State.tick_mem (s : State) : (s.tick).mem = s.mem := rfl
@[simp] theorem State.tick_draws (s : State) : (s.tick).draws = s.draws := rfl
@[simp] theorem State.tick_adv (s : State) : (s.tick).adv = s.adv := rfl
@[simp] theorem State.tick_script (s : State) : (s.tick).script = s.script := rfl
@[simp] theorem State.tick_result (s : State) : (s.tick).result = s.result := rfl

/-! ### `State.spendStep` -/

@[simp] theorem State.spendStep_v (s : State) : (s.spendStep).v = s.v := rfl
@[simp] theorem State.spendStep_i (s : State) : (s.spendStep).i = s.i := rfl
@[simp] theorem State.spendStep_pc (s : State) : (s.spendStep).pc = s.pc := rfl
@[simp] theorem State.spendStep_sp (s : State) : (s.spendStep).sp = s.sp := rfl
@[simp] theorem State.spendStep_stk (s : State) : (s.spendStep).stk = s.stk := rfl
@[simp] theorem State.spendStep_dt (s : State) : (s.spendStep).dt = s.dt := rfl
@[simp] theorem State.spendStep_st (s : State) : (s.spendStep).st = s.st := rfl
@[simp] theorem State.spendStep_fb (s : State) : (s.spendStep).fb = s.fb := rfl
@[simp] theorem State.spendStep_keys (s : State) : (s.spendStep).keys = s.keys := rfl
@[simp] theorem State.spendStep_fault (s : State) : (s.spendStep).fault = s.fault := rfl
@[simp] theorem State.spendStep_mem (s : State) : (s.spendStep).mem = s.mem := rfl
@[simp] theorem State.spendStep_draws (s : State) : (s.spendStep).draws = s.draws := rfl
@[simp] theorem State.spendStep_adv (s : State) : (s.spendStep).adv = s.adv.map (· - 1) := rfl
@[simp] theorem State.spendStep_script (s : State) : (s.spendStep).script = s.script := rfl
@[simp] theorem State.spendStep_result (s : State) : (s.spendStep).result = s.result := rfl

/-! ### Updates made of other updates -/

@[simp] theorem State.sequential_eq (s : State) : s.sequential = s.goto (s.pc + 2) := rfl
@[simp] theorem State.skipIf_eq (s : State) (c : Bool) :
    s.skipIf c = s.goto (if c then s.pc + 4 else s.pc + 2) := rfl
@[simp] theorem State.resultThenFlag_eq (s : State) (x : Reg) (r f : Byte) :
    s.resultThenFlag x r f = ((s.setReg x r).setReg flagReg f).goto (s.pc + 2) := rfl
@[simp] theorem State.rand_fst (s : State) : s.rand.1 = Config.randByte s.draws := rfl
@[simp] theorem State.rand_snd (s : State) : s.rand.2 = { s with draws := s.draws + 1 } := rfl

/-! ### Registers -/

theorem State.reg_eq (s : State) (x : Reg) : s.reg x = s.v[x] := rfl

/-- A register write is seen at its own number and nowhere else: no register is hard-wired (rule R20). -/
theorem State.reg_setReg (s : State) (x y : Reg) (b : Byte) :
    (s.setReg x b).reg y = if x = y then b else s.reg y := by
  simp only [State.reg, State.setReg_v, Fin.getElem_fin, Vector.getElem_set, Fin.ext_iff]

/-- What `resultThenFlag` leaves in a register: the flag in `V[0xF]`, whatever `x` is (rule R131). -/
theorem State.reg_resultThenFlag (s : State) (x y : Reg) (r f : Byte) :
    (s.resultThenFlag x r f).reg y = if y = flagReg then f else if x = y then r else s.reg y := by
  have h : (s.resultThenFlag x r f).reg y = ((s.setReg x r).setReg flagReg f).reg y := rfl
  rw [h, State.reg_setReg, State.reg_setReg]
  simp only [eq_comm]

/-- `reg_setReg`, on the register file. -/
theorem State.v_setReg (s : State) (x y : Reg) (b : Byte) :
    (s.setReg x b).v[y] = if x = y then b else s.v[y] :=
  State.reg_setReg s x y b

/-- `reg_resultThenFlag`, on the register file. -/
theorem State.v_resultThenFlag (s : State) (x y : Reg) (r f : Byte) :
    (s.resultThenFlag x r f).v[y] = if y = flagReg then f else if x = y then r else s.v[y] :=
  State.reg_resultThenFlag s x y r f

/-- The number of a flag byte. -/
theorem flagByte_toNat (b : Bool) : (flagByte b).toNat = if b = true then 1 else 0 := by cases b <;> rfl

/-- `PC` after an instruction that goes on to the next in line. -/
theorem State.sequential_pc_toNat (s : State) : s.sequential.pc.toNat = (s.pc.toNat + 2) % 65536 := by
  simp

end Sys2Proof.Machine
end

