-- ==== Sys2Proof/Laws/Ops.lean ====
section
/-! SUPPORT. What each shared operation can do, said once, to be cited where it would be unfolded. -/

namespace Sys2Proof.Machine

/-! ## Operands -/

theorem addrExists_iff (a : Nat) : addrExists a = true ↔ a < 4096 := by simp [addrExists]

theorem State.indexBlockExists_iff (s : State) (n : Nat) :
    s.indexBlockExists n = true ↔ n = 0 ∨ s.i.toNat + n - 1 < 4096 := by
  cases n with
  | zero => simp [State.indexBlockExists]
  | succ k => simp [State.indexBlockExists, addrExists_iff, State.indexAddr]

theorem State.fetchWord_some (s : State) (h : s.pc.toNat + 1 < 4096) :
    s.fetchWord = some (wordOfBytes (s.mem.read s.pc.toNat) (s.mem.read (s.pc.toNat + 1))) := by
  have h0 : addrExists s.pc.toNat = true := (addrExists_iff _).mpr (by omega)
  have h1 : addrExists (s.pc.toNat + 1) = true := (addrExists_iff _).mpr h
  simp [State.fetchWord, State.memRead, h0, h1]

theorem State.fetchWord_none (s : State) (h : 4095 ≤ s.pc.toNat) : s.fetchWord = none := by
  have h1 : addrExists (s.pc.toNat + 1) = false := by
    rw [← Bool.not_eq_true, addrExists_iff]; omega
  simp [State.fetchWord, State.memRead, h1]

theorem State.key_some (s : State) (k : Byte) (h : k.toNat < 16) : s.key k = some s.keys[k.toNat] :=
  dif_pos h

theorem State.key_none (s : State) (k : Byte) (h : 15 < k.toNat) : s.key k = none := dif_neg (by omega)

theorem leastKey_none (keys : KeyVector) : leastKey keys = none ↔ ∀ k : Fin 16, keys[k] = false := by
  simp [leastKey]

theorem leastKey_some (keys : KeyVector) (k : Fin 16) :
    leastKey keys = some k ↔ keys[k] = true ∧ ∀ j : Fin 16, j < k → keys[j] = false := by
  simp only [leastKey, List.find?_eq_some_iff_getElem, List.getElem_finRange]
  refine and_congr_right fun _ => ⟨?_, fun h => ⟨k.val, by simp, by simp, fun j hj => ?_⟩⟩
  · rintro ⟨i, hi, rfl, h⟩ j hj
    simpa using h j.val hj
  · simpa using h ⟨j, by omega⟩ hj

/-! ## Flags -/

theorem carryFlag_toNat (a b : Byte) : (carryFlag a b).toNat = if 255 < a.toNat + b.toNat then 1 else 0 := by
  rw [carryFlag, flagByte_toNat]; simp only [decide_eq_true_eq]

theorem noBorrowFlag_toNat (a b : Byte) : (noBorrowFlag a b).toNat = if b.toNat ≤ a.toNat then 1 else 0 := by
  rw [noBorrowFlag, flagByte_toNat]; simp only [decide_eq_true_eq]

theorem lowBitFlag_toNat (a : Byte) : (lowBitFlag a).toNat = a.toNat % 2 := by
  rw [lowBitFlag, BitVec.getLsbD, Nat.testBit_zero]
  by_cases h : a.toNat % 2 = 1
  · rw [decide_eq_true h]; exact h.symm
  · rw [decide_eq_false h]; show 0 = _; omega

theorem highBitFlag_toNat (a : Byte) : (highBitFlag a).toNat = a.toNat / 128 := by
  rw [highBitFlag, BitVec.getLsbD, Nat.testBit_eq_decide_div_mod_eq]
  by_cases h : a.toNat / 2 ^ 7 % 2 = 1
  · rw [decide_eq_true h]; show 1 = _; omega
  · rw [decide_eq_false h]; show 0 = _; omega

/-! ## The call stack -/

theorem State.push_some (s : State) (a : Word16) (h : s.sp.val < 16) :
    s.push a = some { s with stk := s.stk.set s.sp.val a, sp := ⟨s.sp.val + 1, Nat.succ_lt_succ h⟩ } :=
  dif_pos h

theorem State.push_none (s : State) (a : Word16) (h : s.sp.val = 16) : s.push a = none :=
  dif_neg (by simp [h])

theorem State.pop_some (s : State) (h : 0 < s.sp.val) :
    s.pop = some (s.stk[s.sp.val - 1]'(by omega), { s with sp := ⟨s.sp.val - 1, by omega⟩ }) :=
  dif_neg (by omega)

theorem State.pop_none (s : State) (h : s.sp.val = 0) : s.pop = none := dif_pos h

/-! ## Timers -/

theorem tickTimer_toNat (t : Byte) : (tickTimer t).toNat = t.toNat - 1 := by
  rw [tickTimer]
  split
  · rename_i h; subst h; rfl
  · rename_i h
    have : t.toNat ≠ 0 := fun e => h (BitVec.eq_of_toNat_eq e)
    rw [BitVec.toNat_sub_of_le]
    · rfl
    · rw [BitVec.le_def]; show 1 ≤ t.toNat; omega

/-! ## Stores -/

/-- The bytes `storeAtI` leaves. -/
theorem State.read_storeAtI (s : State) (bs : List Byte) (b : Nat) :
    (s.storeAtI bs).mem.read b =
      if h : s.i.toNat ≤ b ∧ b < s.i.toNat + bs.length then bs[b - s.i.toNat]'(by omega) else s.mem.read b :=
  Memory.read_writeBytes bs s.mem _ b

/-- A store below 4096 keeps the canonical form. -/
theorem State.wf_storeAtI (s : State) (bs : List Byte) (h : s.mem.wf) (hb : s.i.toNat + bs.length ≤ 4096) :
    (s.storeAtI bs).mem.wf :=
  Memory.wf_writeBytes bs h hb

end Sys2Proof.Machine
end

