-- ==== Sys2Proof/Laws/Exec.lean ====
section
/-! SUPPORT. The instructions that can fault or wait, each with what it can come to, said once; every other
instruction has one outcome, which `rfl` shows. Last, what all of them keep. -/

namespace Sys2Proof.Machine

variable {s t : State}

theorem exec_ret_cases (h : exec .ret s = .next t) :
    (s.sp.val = 0 ∧ t = s.raise .stackUnderflow) ∨
      ∃ h0 : 0 < s.sp.val, t = { s with
        sp := ⟨s.sp.val - 1, by omega⟩, pc := s.stk[s.sp.val - 1]'(by omega) + 2 } := by
  by_cases h0 : s.sp.val = 0
  · simp only [exec, execRet, State.pop_none s h0] at h
    cases h; exact .inl ⟨h0, rfl⟩
  · simp only [exec, execRet, State.pop_some s (Nat.pos_of_ne_zero h0)] at h
    cases h; exact .inr ⟨Nat.pos_of_ne_zero h0, rfl⟩

theorem exec_call_cases {nnn : BitVec 12} (h : exec (.call nnn) s = .next t) :
    (s.sp.val = 16 ∧ t = s.raise .stackOverflow) ∨
      ∃ h0 : s.sp.val < 16, t = { s with
        stk := s.stk.set s.sp.val s.pc, sp := ⟨s.sp.val + 1, by omega⟩, pc := jumpTarget nnn } := by
  by_cases h0 : s.sp.val < 16
  · simp only [exec, execCall, State.push_some s _ h0] at h
    cases h; exact .inr ⟨h0, rfl⟩
  · have h1 : s.sp.val = 16 := by omega
    simp only [exec, execCall, State.push_none s _ h1] at h
    cases h; exact .inl ⟨h1, rfl⟩

theorem exec_skp_cases {x : Reg} (h : exec (.skp x) s = .next t) :
    (15 < (s.reg x).toNat ∧ t = s.raise .keyIndexOutOfRange) ∨
      ∃ h0 : (s.reg x).toNat < 16, t = s.skipIf s.keys[(s.reg x).toNat] := by
  by_cases h0 : (s.reg x).toNat < 16
  · simp only [exec, execSkp, State.key_some s _ h0] at h
    cases h; exact .inr ⟨h0, rfl⟩
  · have h1 : 15 < (s.reg x).toNat := by omega
    simp only [exec, execSkp, State.key_none s _ h1] at h
    cases h; exact .inl ⟨h1, rfl⟩

theorem exec_sknp_cases {x : Reg} (h : exec (.sknp x) s = .next t) :
    (15 < (s.reg x).toNat ∧ t = s.raise .keyIndexOutOfRange) ∨
      ∃ h0 : (s.reg x).toNat < 16, t = s.skipIf !s.keys[(s.reg x).toNat] := by
  by_cases h0 : (s.reg x).toNat < 16
  · simp only [exec, execSknp, State.key_some s _ h0] at h
    cases h; exact .inr ⟨h0, rfl⟩
  · have h1 : 15 < (s.reg x).toNat := by omega
    simp only [exec, execSknp, State.key_none s _ h1] at h
    cases h; exact .inl ⟨h1, rfl⟩

theorem exec_ldVxK_cases {x : Reg} (h : exec (.ldVxK x) s = .next t) :
    ((∀ k : Fin 16, s.keys[k] = false) ∧ t = s) ∨
      ∃ k : Fin 16, leastKey s.keys = some k ∧
        t = (s.setReg x (BitVec.ofNat 8 k.val)).sequential := by
  simp only [exec, execLdVxK] at h
  split at h <;> cases h
  · exact .inl ⟨(leastKey_none _).mp ‹_›, rfl⟩
  · exact .inr ⟨_, ‹_›, rfl⟩

theorem exec_drw_cases {x y : Reg} {n : Fin 16} (h : exec (.drw x y n) s = .next t) :
    (0 < n.val ∧ 4096 ≤ s.i.toNat + n.val - 1 ∧ t = s.raise .memOutOfBounds) ∨
      ((n.val = 0 ∨ s.i.toNat + n.val - 1 < 4096) ∧
        t = ((s.setFb (s.spriteDrawn x y n.val).1).setReg flagReg
          (collisionFlag (s.spriteDrawn x y n.val).2)).sequential) := by
  have hb := s.indexBlockExists_iff n.val
  simp only [exec, execDrw] at h
  split at h <;> cases h
  · exact .inr ⟨hb.mp ‹_›, rfl⟩
  · rename_i hn; rw [hb] at hn; exact .inl ⟨by omega, by omega, rfl⟩

theorem exec_ldB_cases {x : Reg} (h : exec (.ldB x) s = .next t) :
    (4096 ≤ s.i.toNat + 2 ∧ t = s.raise .memOutOfBounds) ∨
      (s.i.toNat + 2 < 4096 ∧ t = (s.storeAtI (bcdDigits (s.reg x))).sequential) := by
  have hb := s.indexBlockExists_iff 3
  simp only [exec, execLdB] at h
  split at h <;> cases h
  · rename_i hn; rw [hb] at hn; exact .inr ⟨by omega, rfl⟩
  · rename_i hn; rw [hb] at hn; exact .inl ⟨by omega, rfl⟩

theorem exec_stRegs_cases {x : Reg} (h : exec (.stRegs x) s = .next t) :
    (4096 ≤ s.i.toNat + x.val ∧ t = s.raise .memOutOfBounds) ∨
      (s.i.toNat + x.val < 4096 ∧ t = (s.storeAtI (s.regsUpTo x)).sequential) := by
  have hb := s.indexBlockExists_iff (x.val + 1)
  simp only [exec, execStRegs] at h
  split at h <;> cases h
  · rename_i hn; rw [hb] at hn; exact .inr ⟨by omega, rfl⟩
  · rename_i hn; rw [hb] at hn; exact .inl ⟨by omega, rfl⟩

theorem exec_ldRegs_cases {x : Reg} (h : exec (.ldRegs x) s = .next t) :
    (4096 ≤ s.i.toNat + x.val ∧ t = s.raise .memOutOfBounds) ∨
      (s.i.toNat + x.val < 4096 ∧ t = (s.setRegs (s.regsLoaded x)).sequential) := by
  have hb := s.indexBlockExists_iff (x.val + 1)
  simp only [exec, execLdRegs] at h
  split at h <;> cases h
  · rename_i hn; rw [hb] at hn; exact .inr ⟨by omega, rfl⟩
  · rename_i hn; rw [hb] at hn; exact .inl ⟨by omega, rfl⟩

theorem State.length_regsUpTo (s : State) (x : Reg) : (s.regsUpTo x).length = x.val + 1 := by
  simp [State.regsUpTo]

/-- An instruction either raises a fault, and then that is all it does, or it leaves the fault latch, the keys and
everything of the host as they are. -/
theorem exec_raises_or_keeps {i : Instr} (h : exec i s = .next t) :
    (∃ c, t = s.raise c) ∨
      (t.fault = s.fault ∧ t.keys = s.keys ∧ t.adv = s.adv ∧ t.script = s.script ∧ t.result = s.result) := by
  cases i with
  | ret => obtain ⟨-, rfl⟩ | ⟨-, rfl⟩ := exec_ret_cases h <;> simp
  | call nnn => obtain ⟨-, rfl⟩ | ⟨-, rfl⟩ := exec_call_cases h <;> simp
  | drw x y n => obtain ⟨-, -, rfl⟩ | ⟨-, rfl⟩ := exec_drw_cases h <;> simp
  | skp x => obtain ⟨-, rfl⟩ | ⟨-, rfl⟩ := exec_skp_cases h <;> simp
  | sknp x => obtain ⟨-, rfl⟩ | ⟨-, rfl⟩ := exec_sknp_cases h <;> simp
  | ldVxK x => obtain ⟨-, rfl⟩ | ⟨k, -, rfl⟩ := exec_ldVxK_cases h <;> simp
  | ldB x => obtain ⟨-, rfl⟩ | ⟨-, rfl⟩ := exec_ldB_cases h <;> simp
  | stRegs x => obtain ⟨-, rfl⟩ | ⟨-, rfl⟩ := exec_stRegs_cases h <;> simp
  | ldRegs x => obtain ⟨-, rfl⟩ | ⟨-, rfl⟩ := exec_ldRegs_cases h <;> simp
  | _ => cases h; exact .inr ⟨rfl, rfl, rfl, rfl, rfl⟩

/-- No instruction is refused or stops the machine. -/
theorem exec_answers_next (i : Instr) (s : State) : ∃ t, exec i s = .next t := by
  cases i with
  | ret => simp only [exec, execRet]; split <;> exact ⟨_, rfl⟩
  | call n => simp only [exec, execCall]; split <;> exact ⟨_, rfl⟩
  | drw x y n => simp only [exec, execDrw]; split <;> exact ⟨_, rfl⟩
  | skp x => simp only [exec, execSkp]; split <;> exact ⟨_, rfl⟩
  | sknp x => simp only [exec, execSknp]; split <;> exact ⟨_, rfl⟩
  | ldVxK x => simp only [exec, execLdVxK]; split <;> exact ⟨_, rfl⟩
  | ldB x => simp only [exec, execLdB]; split <;> exact ⟨_, rfl⟩
  | stRegs x => simp only [exec, execStRegs]; split <;> exact ⟨_, rfl⟩
  | ldRegs x => simp only [exec, execLdRegs]; split <;> exact ⟨_, rfl⟩
  | _ => exact ⟨_, rfl⟩

end Sys2Proof.Machine
end

