-- ==== Sys2Proof/Laws/Step.lean ====
section
/-! SUPPORT. What a step of the interpreter and a step of the block can do, said once as inversion
lemmas. -/

namespace Sys2Proof.Machine

/-- A step of the interpreter: the fetch faults, or the decode, or an instruction runs. -/
theorem interpret_cases {s : State} {o : Outcome} (h : interpret s = o) :
    (4095 ≤ s.pc.toNat ∧ o = .next (s.raise .memOutOfBounds)) ∨
    (s.pc.toNat ≤ 4094 ∧ ((∃ r, decodeWord (wordOfBytes (s.mem.read s.pc.toNat) (s.mem.read (s.pc.toNat + 1))) =
        .error r ∧ o = .next (s.raise .invalidOpcode)) ∨
      ∃ i, decodeWord (wordOfBytes (s.mem.read s.pc.toNat) (s.mem.read (s.pc.toNat + 1))) = .ok i ∧
        exec i s = o)) := by
  by_cases hp : s.pc.toNat ≤ 4094
  · refine .inr ⟨hp, ?_⟩
    rw [interpret, State.fetchWord_some s (by omega)] at h
    simp only at h
    rcases hd : decodeWord (wordOfBytes (s.mem.read s.pc.toNat) (s.mem.read (s.pc.toNat + 1))) with r | i
    · rw [hd] at h; exact .inl ⟨r, rfl, h.symm⟩
    · rw [hd] at h; exact .inr ⟨i, rfl, h⟩
  · rw [interpret, State.fetchWord_none s (by omega)] at h
    exact .inl ⟨by omega, h.symm⟩

/-- A step of the block: the end of an ADVANCE by fault or by tick, a step of the interpreter, a transaction, or
nothing to do. -/
theorem step_cases {s : State} {o : Outcome} (h : step s = o) :
    (∃ n c, s.adv = some n ∧ s.fault = some c ∧ o = .next (s.endAdvance (.error c))) ∨
    (s.adv = some 0 ∧ s.fault = none ∧ o = .next (s.tick.endAdvance .ok)) ∨
    (∃ n, s.adv = some (n + 1) ∧ s.fault = none ∧ interpret s.spendStep = o) ∨
    (∃ tr rest, s.adv = none ∧ s.script = tr :: rest ∧
      o = .next (({ s with script := rest } : State).perform tr)) ∨
    (∃ c, s.adv = none ∧ s.script = [] ∧ s.fault = some c ∧ o = .fault (.stopped c)) ∨
    (s.adv = none ∧ s.script = [] ∧ s.fault = none ∧ o = .next s) := by
  rw [step] at h
  rcases ha : s.adv with _ | n
  · rw [ha] at h
    simp only [hostStep] at h
    rcases hs : s.script with _ | ⟨tr, rest⟩
    · rw [hs] at h
      rcases hf : s.fault with _ | c <;> rw [hf] at h <;> simp_all
    · rw [hs] at h; simp_all
  · rw [ha] at h
    simp only [advanceStep] at h
    rcases hf : s.fault with _ | c
    · rw [hf] at h
      rcases n with _ | n <;> simp_all
    · rw [hf] at h; simp_all

/-- The step with a step of an ADVANCE left to run. -/
theorem step_advancing {s : State} {n : Nat} (ha : s.adv = some (n + 1)) (hf : s.fault = none) :
    step s = interpret { s with adv := some n } := by
  have : s.spendStep = { s with adv := some n } := by simp [State.spendStep, ha]
  simp only [step, ha, advanceStep, hf, this]

end Sys2Proof.Machine
end

