-- ==== Sys2Proof/Laws/Run.lean ====
section
/-! SUPPORT. Runs of a machine behind the host's interface, step by step. -/

namespace Sys2Proof.Machine

/-- A run of any machine, by its first step. -/
theorem run_first (M : Host.Core) {s t : M.State} (h : M.step s = .next t) (k : Nat) :
    M.run (k + 1) s = M.run k t := by
  rw [Host.Core.run, h]

/-- One step more, at the end of a run of any machine. -/
theorem run_last (M : Host.Core) {k : Nat} {s u : M.State} (h : M.run k s = .next u) :
    M.run (k + 1) s = M.step u := by
  induction k generalizing s with
  | zero =>
    cases h
    rw [Host.Core.run]
    cases M.step u <;> rfl
  | succ k ih =>
    cases hs : M.step s with
    | next t => rw [run_first M hs] at h ⊢; exact ih h
    | fault r => rw [Host.Core.run, hs] at h; cases h
    | refused r => rw [Host.Core.run, hs] at h; cases h

theorem run_zero (s : State) : Sys2Proof.core.run 0 s = .next s := rfl

/-- One step more, at the end of a run of this machine. -/
theorem run_step_last {k : Nat} {s u : State} (h : Sys2Proof.core.run k s = .next u) :
    Sys2Proof.core.run (k + 1) s = step u :=
  run_last Sys2Proof.core h

end Sys2Proof.Machine
end

