-- ==== Sys2Proof/Tests/Slice0.lean ====
section
/-! SUPPORT. The model's own tests. Expected values are those of spec/95_test_vectors.md (section numbers in
the headings below) or, where it has none, worked out by hand from the rule named. The last part shows,
for each statement with hypotheses, a state and operands that meet them. -/

namespace Sys2Proof.Tests

open Sys2Proof Sys2Proof.Machine Sys2Proof.Safety

/-- The next state of an outcome. -/
def after : Outcome → State
  | .next t => t
  | .fault _ => State.reset
  | .refused _ => State.reset

/-- The state after RESET with some registers changed. -/
def regs (rs : List (Reg × Byte)) : State := rs.foldl (fun s r => s.setReg r.1 r.2) State.reset

/-- One step of the opcode word `w` from `s`. -/
def run (w : Nat) (s : State) : State := after (step (s.withFetchWord 16 w))

/-- `s` with bytes in memory from `a` on and `I` at `i`. -/
def withMem (s : State) (i : Word16) (a : Nat) (bs : List Byte) : State :=
  { s with i := i, mem := s.mem.writeBytes a bs }

/-- The key vector with the listed keys pressed. -/
def pressed (ks : List Nat) : KeyVector := Vector.ofFn fun k => ks.contains k.val

/-! ## Well-formedness -/

theorem test_wf_refuses_sys_0E0 : (Instr.sys 0x0E0).wellFormed = false := by decide

theorem test_wf_refuses_sys_0EE : (Instr.sys 0x0EE).wellFormed = false := by decide

theorem test_wf_accepts_sys_0EF : (Instr.sys 0x0EF).wellFormed = true := by decide

/-! ## Decoding: the encodings of rule R76, bit by bit -/

theorem test_decode_family_0 :
    decodeWord 0b0000000011100000#16 = .ok (.cls) ∧
    decodeWord 0b0000000011101110#16 = .ok (.ret) ∧
    decodeWord 0b0000000011101111#16 = .ok (.sys 0x0EF) ∧
    decodeWord 0b0000001000000000#16 = .ok (.sys 0x200) := by decide

theorem test_decode_family_1_2 :
    decodeWord 0b0001001000110100#16 = .ok (.jp 0x234) ∧
    decodeWord 0b0010001100000000#16 = .ok (.call 0x300) := by decide

theorem test_decode_family_3_4 :
    decodeWord 0b0011001100101010#16 = .ok (.seImm 3 0x2A) ∧
    decodeWord 0b0100001100101010#16 = .ok (.sneImm 3 0x2A) := by decide

theorem test_decode_family_5_9 :
    decodeWord 0b0101000100100000#16 = .ok (.seReg 1 2) ∧
    decodeWord 0b1001000100100000#16 = .ok (.sneReg 1 2) := by decide

theorem test_decode_family_6_7 :
    decodeWord 0b0110111100110011#16 = .ok (.ldImm 15 0x33) ∧
    decodeWord 0b0111000100000001#16 = .ok (.addImm 1 1) := by decide

theorem test_decode_family_8 :
    decodeWord 0b1000000100100000#16 = .ok (.ldReg 1 2) ∧
    decodeWord 0b1000000100100001#16 = .ok (.orReg 1 2) ∧
    decodeWord 0b1000000100100010#16 = .ok (.andReg 1 2) ∧
    decodeWord 0b1000000100100011#16 = .ok (.xorReg 1 2) ∧
    decodeWord 0b1000000100100100#16 = .ok (.addReg 1 2) ∧
    decodeWord 0b1000000100100101#16 = .ok (.sub 1 2) ∧
    decodeWord 0b1000000111110110#16 = .ok (.shr 1 15) ∧
    decodeWord 0b1000000100100111#16 = .ok (.subn 1 2) ∧
    decodeWord 0b1000000100101110#16 = .ok (.shl 1 2) := by decide

theorem test_decode_family_A_B :
    decodeWord 0b1010001011110000#16 = .ok (.ldI 0x2F0) ∧
    decodeWord 0b1011001100000000#16 = .ok (.jpV0 0x300) := by decide

theorem test_decode_family_C_D :
    decodeWord 0b1100000100001111#16 = .ok (.rnd 1 0x0F) ∧
    decodeWord 0b1101000100100101#16 = .ok (.drw 1 2 5) := by decide

theorem test_decode_family_E :
    decodeWord 0b1110001010011110#16 = .ok (.skp 2) ∧
    decodeWord 0b1110001010100001#16 = .ok (.sknp 2) := by decide

theorem test_decode_family_F :
    decodeWord 0b1111000100000111#16 = .ok (.ldVxDt 1) ∧
    decodeWord 0b1111000100001010#16 = .ok (.ldVxK 1) ∧
    decodeWord 0b1111000100010101#16 = .ok (.ldDtVx 1) ∧
    decodeWord 0b1111000100011000#16 = .ok (.ldStVx 1) ∧
    decodeWord 0b1111000100011110#16 = .ok (.addI 1) ∧
    decodeWord 0b1111000100101001#16 = .ok (.ldF 1) ∧
    decodeWord 0b1111000100110011#16 = .ok (.ldB 1) ∧
    decodeWord 0b1111001001010101#16 = .ok (.stRegs 2) ∧
    decodeWord 0b1111001001100101#16 = .ok (.ldRegs 2) := by decide

/-- 95_test_vectors.md, 2.1. -/
theorem test_decode_invalid :
    decodeWord 0x5121#16 = .error .family5 ∧ decodeWord 0x8128#16 = .error .family8 ∧
    decodeWord 0x812F#16 = .error .family8 ∧ decodeWord 0x9121#16 = .error .family9 ∧
    decodeWord 0xE29F#16 = .error .familyE ∧ decodeWord 0xE0A2#16 = .error .familyE ∧
    decodeWord 0xF100#16 = .error .familyF ∧ decodeWord 0xF1FF#16 = .error .familyF ∧
    decodeWord 0xF175#16 = .error .familyF ∧ decodeWord 0xFFFF#16 = .error .familyF := by decide

theorem test_decode_truncated : decode [0x60] = .error .truncated := by decide

/-- High byte first, and the bytes after the word are left (rules R50, R70). -/
theorem test_decode_bytes : decode [0x60, 0x05, 0x70] = .ok (.ldImm 0 5, [0x70]) := by decide

theorem test_encode_bytes : encodeBytes (.drw 1 2 5) = [0xD1, 0x25] := by decide

theorem test_decode_table_word : decodeTableWord 16 0x6005 = some (.ldImm 0 5) := by decide

/-! ## Control flow (2.2) -/

theorem test_ret :
    (fun t : State => t.sp = 1 ∧ t.pc = 0x0ABE)
      (run 0x00EE { State.reset with sp := 2, stk := (State.reset.stk.set 0 0x0204).set 1 0x0ABC }) := by decide

theorem test_ret_empty :
    (fun t : State => t.fault = some .stackUnderflow ∧ t.pc = 0x0200)
      (run 0x00EE State.reset) := by decide

theorem test_sys :
    (fun t : State => t.pc = 0x0202)
      (run 0x00FF State.reset) := by decide

theorem test_jp :
    (fun t : State => t.pc = 0x0FFF)
      (run 0x1FFF State.reset) := by decide

theorem test_call :
    (fun t : State => t.stk[15] = 0x0200 ∧ t.sp = 16 ∧ t.pc = 0x0300)
      (run 0x2300 { State.reset with sp := 15 }) := by decide

theorem test_call_full :
    (fun t : State => t.fault = some .stackOverflow ∧ t.pc = 0x0200 ∧ t.sp = 16)
      (run 0x2300 { State.reset with sp := 16 }) := by decide

theorem test_seImm :
    (fun t : State => t.pc = 0x0204)
      (run 0x332A (regs [(3, 0x2A)])) := by decide

theorem test_seImm_not :
    (fun t : State => t.pc = 0x0202)
      (run 0x332B (regs [(3, 0x2A)])) := by decide

theorem test_sneImm :
    (fun t : State => t.pc = 0x0204)
      (run 0x4300 (regs [(3, 0x2A)])) := by decide

theorem test_sneImm_not :
    (fun t : State => t.pc = 0x0202)
      (run 0x432A (regs [(3, 0x2A)])) := by decide

theorem test_seReg :
    (fun t : State => t.pc = 0x0204)
      (run 0x5110 (regs [(1, 0x09)])) := by decide

theorem test_seReg_not :
    (fun t : State => t.pc = 0x0202)
      (run 0x5120 (regs [(1, 0x07), (2, 0x08)])) := by decide

theorem test_sneReg :
    (fun t : State => t.pc = 0x0204)
      (run 0x9120 (regs [(1, 0x07), (2, 0x08)])) := by decide

theorem test_sneReg_not :
    (fun t : State => t.pc = 0x0202)
      (run 0x9110 (regs [(1, 0x09)])) := by decide

theorem test_jpV0 :
    (fun t : State => t.pc = 0x10FE)
      (run 0xBFFF (regs [(0, 0xFF)])) := by decide

theorem test_jpV0_uses_V0 :
    (fun t : State => t.pc = 0x0310)
      (run 0xB300 (regs [(0, 0x10), (3, 0x77)])) := by decide

/-! ## Load, arithmetic, logic (2.3) -/

theorem test_ldImm :
    (fun t : State => t.v[15] = 0x33 ∧ t.pc = 0x0202)
      (run 0x6F33 State.reset) := by decide

theorem test_addImm :
    (fun t : State => t.v[1] = 0 ∧ t.v[15] = 0x55)
      (run 0x7101 (regs [(1, 0xFF), (15, 0x55)])) := by decide

theorem test_ldReg :
    (fun t : State => t.v[1] = 0x9C ∧ t.v[2] = 0x9C)
      (run 0x8120 (regs [(2, 0x9C)])) := by decide

theorem test_orReg :
    (fun t : State => t.v[1] = 0xFF ∧ t.v[15] = 7)
      (run 0x8121 (regs [(1, 0xF0), (2, 0x0F), (15, 0x07)])) := by decide

theorem test_andReg :
    (fun t : State => t.v[1] = 0x30 ∧ t.v[15] = 7)
      (run 0x8122 (regs [(1, 0xF0), (2, 0x3C), (15, 0x07)])) := by decide

theorem test_xorReg :
    (fun t : State => t.v[1] = 0xCC ∧ t.v[15] = 7)
      (run 0x8123 (regs [(1, 0xF0), (2, 0x3C), (15, 0x07)])) := by decide

theorem test_addReg :
    (fun t : State => t.v[1] = 0x2C ∧ t.v[15] = 1)
      (run 0x8124 (regs [(1, 0xC8), (2, 0x64)])) := by decide

theorem test_addReg_to_flag :
    (fun t : State => t.v[15] = 1)
      (run 0x8F14 (regs [(15, 0x90), (1, 0x90)])) := by decide

theorem test_sub :
    (fun t : State => t.v[1] = 0xFB ∧ t.v[15] = 0)
      (run 0x8125 (regs [(1, 0x05), (2, 0x0A)])) := by decide

theorem test_sub_from_flag :
    (fun t : State => t.v[15] = 1)
      (run 0x8F15 (regs [(15, 0x09), (1, 0x03)])) := by decide

theorem test_shr :
    (fun t : State => t.v[1] = 2 ∧ t.v[15] = 1 ∧ t.v[2] = 0xFF)
      (run 0x8126 (regs [(1, 0x05), (2, 0xFF)])) := by decide

theorem test_shr_of_flag :
    (fun t : State => t.v[15] = 0)
      (run 0x8F06 (regs [(15, 0x02)])) := by decide

theorem test_subn :
    (fun t : State => t.v[1] = 0xFB ∧ t.v[15] = 0)
      (run 0x8127 (regs [(1, 0x0A), (2, 0x05)])) := by decide

theorem test_subn_of_flag :
    (fun t : State => t.v[15] = 1)
      (run 0x8F17 (regs [(15, 0x03), (1, 0x09)])) := by decide

theorem test_shl :
    (fun t : State => t.v[1] = 2 ∧ t.v[15] = 1)
      (run 0x812E (regs [(1, 0x81)])) := by decide

theorem test_shl_of_flag :
    (fun t : State => t.v[15] = 0)
      (run 0x8F0E (regs [(15, 0x7F)])) := by decide

/-- For every random byte: masked by the immediate. -/
theorem test_rnd : (run 0xC10F State.reset).v[1] = Config.randByte 0 &&& 0x0F := by rfl

theorem test_rnd_draws_one : (run 0xC10F State.reset).draws = 1 := by decide

/-! ## Index and memory (2.4) -/

theorem test_ldI :
    (fun t : State => t.i = 0x02F0)
      (run 0xA2F0 State.reset) := by decide

theorem test_addI :
    (fun t : State => t.i = 0 ∧ t.v[15] = 7)
      (run 0xF11E { regs [(1, 0x01), (15, 0x07)] with i := 0xFFFF }) := by decide

theorem test_addI_past_memory :
    (fun t : State => t.i = 0x1000)
      (run 0xF11E { regs [(1, 0x01)] with i := 0x0FFF }) := by decide

theorem test_ldF :
    (fun t : State => t.i = 0x0082)
      (run 0xF129 (regs [(1, 0x0A)])) := by decide

theorem test_ldF_unmasked :
    (fun t : State => t.i = 0x054B)
      (run 0xF129 (regs [(1, 0xFF)])) := by decide

theorem test_ldB :
    (fun t : State => t.mem.readBytes 0x300 3 = [1, 5, 6])
      (run 0xF133 { regs [(1, 0x9C)] with i := 0x0300 }) := by decide

theorem test_ldB_past_memory :
    (fun t : State => t.fault = some .memOutOfBounds ∧ t.mem.read 0xFFE = 0)
      (run 0xF133 { regs [(1, 0xFF)] with i := 0x0FFE }) := by decide

theorem test_stRegs :
    (fun t : State => t.mem.readBytes 0x400 4 = [0x11, 0x22, 0x33, 0] ∧ t.i = 0x0400)
      (run 0xF255 { regs [(0, 0x11), (1, 0x22), (2, 0x33), (3, 0x44)] with i := 0x0400 }) := by decide

theorem test_stRegs_no_wrap :
    (fun t : State => t.fault = some .memOutOfBounds ∧ t.mem.read 0 = 0)
      (run 0xF155 { regs [(0, 0xAA), (1, 0xBB)] with i := 0xFFFF }) := by decide

theorem test_ldRegs :
    (fun t : State => t.v.toList.take 4 = [0x11, 0x22, 0x33, 0x99] ∧ t.i = 0x0400)
      (run 0xF265 (withMem (regs [(3, 0x99)]) 0x0400 0x400 [0x11, 0x22, 0x33, 0x44])) := by decide

theorem test_ldRegs_past_memory :
    (fun t : State => t.fault = some .memOutOfBounds ∧ t.v[0] = 0)
      (run 0xFF65 { State.reset with i := 0x0FF1 }) := by decide

/-! ## Display (2.5) -/

theorem test_cls :
    (fun t : State => t.fb.pixel 3 4 = false)
      (run 0x00E0 { State.reset with fb := (drawPixel (State.reset.fb, false) 4 3).1 }) := by decide

theorem test_drw_clips :
    (fun t : State => (List.finRange 64).filter (t.fb.pixel 0 ·) = [60, 61, 62, 63] ∧ t.v[15] = 0)
      (run 0xD011 (withMem (regs [(0, 0x3C)]) 0x0300 0x300 [0xFF])) := by decide

theorem test_drw_reads_old_flag :
    (fun t : State => t.fb.pixel 2 5 = true ∧ t.v[15] = 0)
      (run 0xDF11 (withMem (regs [(15, 0x05), (1, 0x02)]) 0x0300 0x300 [0x80])) := by decide

/-! ## Keypad and timers (2.6) -/

theorem test_skp :
    (fun t : State => t.pc = 0x0204)
      (run 0xE29E { regs [(2, 0x0F)] with keys := pressed [15] }) := by decide

theorem test_skp_no_such_key :
    (fun t : State => t.fault = some .keyIndexOutOfRange ∧ t.pc = 0x0200)
      (run 0xE29E (regs [(2, 0x10)])) := by decide

theorem test_sknp :
    (fun t : State => t.pc = 0x0202)
      (run 0xE2A1 { regs [(2, 0x05)] with keys := pressed [5] }) := by decide

theorem test_sknp_not_pressed :
    (fun t : State => t.pc = 0x0204)
      (run 0xE2A1 (regs [(2, 0x05)])) := by decide

theorem test_ldVxK_waits :
    (fun t : State => t.pc = 0x0200 ∧ t.v[1] = 0x77)
      (run 0xF10A (regs [(1, 0x77)])) := by decide

theorem test_ldVxK_least :
    (fun t : State => t.v[1] = 3 ∧ t.pc = 0x0202)
      (run 0xF10A { regs [(1, 0x77)] with keys := pressed [3, 7] }) := by decide

theorem test_ldVxDt :
    (fun t : State => t.v[1] = 0x3C)
      (run 0xF107 { State.reset with dt := 0x3C }) := by decide

theorem test_ldDtVx :
    (fun t : State => t.dt = 0x3C ∧ t.st = 0)
      (run 0xF115 (regs [(1, 0x3C)])) := by decide

theorem test_ldStVx :
    (fun t : State => t.st = 0x0A ∧ t.tone = true)
      (run 0xF118 (regs [(1, 0x0A)])) := by decide

/-! ## Steps, faults and transactions (2.2, 2.7, part 1) -/

theorem test_invalid_word : (run 0x9121 State.reset).faultCode = 1 := by decide

/-- A fetch at 0x0FFF: the second byte would be at 0x1000. -/
theorem test_fetch_past_memory :
    (after (step { State.reset with pc := 0x0FFF, adv := some 1 })).fault = some .memOutOfBounds := by decide

theorem test_tick :
    (after (step { State.reset with dt := 1, adv := some 0 })).dt = 0 ∧
    (after (step { State.reset with st := 0, adv := some 0 })).st = 0 := by decide

/-- LOAD puts the image at 0x0200. -/
theorem test_load :
    (after (step { State.reset with script := [.load [0x60, 0x05]] })).mem.read 0x201 = 0x05 := by decide

theorem test_reset_reads_the_font : State.reset.mem.read 0x50 = 0xF0 ∧ State.reset.mem.read 0xA0 = 0 := by
  decide

theorem test_writing_the_background_lists_nothing :
    Memory.write (Memory.write [] 0x300 7) 0x300 0 = [] := by decide

/-! ## The hypotheses of the statements are met

`witness_X` shows a state and operands that meet all the hypotheses of `Obligations.X`, or of each of its
clauses, at the boundaries of their ranges. -/

/-- The states the step statements are about: an ADVANCE in progress and two bytes at `PC`. -/
def fetching (hi lo : Byte) (n : Nat) : State :=
  { withMem State.reset 0 0x200 [hi, lo] with adv := some n }

/-- A running machine with one transaction to come. -/
def asked (t : Transaction) : State := { State.reset with script := [t] }

/-- A machine with a fault latched. -/
def faulted (ts : List Transaction) : State := { State.reset with fault := some .stackOverflow, script := ts }

theorem witness_DecodeInvertsEncode :
    (Instr.sys 0x0EF).wellFormed = true ∧ (Instr.drw 1 15 0).wellFormed = true := by decide

theorem witness_EncodeInvertsDecode : decodeWord 0x81FE#16 = .ok (.shl 1 15) := by decide

theorem witness_FetchReadsTwoBytesBelow4096 :
    ({ State.reset with pc := 0x0FFE } : State).pc.toNat ≤ 4094 ∧
    4095 ≤ ({ State.reset with pc := 0x0FFF } : State).pc.toNat := by decide

theorem witness_StepRunsTheDecodedInstruction :
    (fetching 0x60 0x05 1).adv = some (0 + 1) ∧ Running (fetching 0x60 0x05 1) ∧
    (fetching 0x60 0x05 1).pc.toNat + 1 < 4096 ∧
    decodeWord (wordOfBytes ((fetching 0x60 0x05 1).mem.read (fetching 0x60 0x05 1).pc.toNat)
      ((fetching 0x60 0x05 1).mem.read ((fetching 0x60 0x05 1).pc.toNat + 1))) = .ok (.ldImm 0 5) := by decide

theorem witness_StepFaultsOnAnInvalidWord :
    (fetching 0xFF 0xFF 1).adv = some (0 + 1) ∧ Running (fetching 0xFF 0xFF 1) ∧
    (fetching 0xFF 0xFF 1).pc.toNat + 1 < 4096 ∧
    decodeWord (wordOfBytes ((fetching 0xFF 0xFF 1).mem.read (fetching 0xFF 0xFF 1).pc.toNat)
      ((fetching 0xFF 0xFF 1).mem.read ((fetching 0xFF 0xFF 1).pc.toNat + 1))) = .error .familyF := by decide

theorem witness_PlacedWordRunsNext : decodeWord 0x6005#16 = .ok (.ldImm 0 5) := by decide

theorem witness_ReturnPopsTheCallStack :
    0 < ({ State.reset with sp := 1 } : State).sp.val ∧ 0 < ({ State.reset with sp := 16 } : State).sp.val ∧
    State.reset.sp.val = 0 := by decide

theorem witness_CallPushesItsOwnAddress :
    State.reset.sp.val < 16 ∧ ({ State.reset with sp := 15 } : State).sp.val < 16 ∧
    ({ State.reset with sp := 16 } : State).sp.val = 16 := by decide

/-- The state right after the call meets the inner hypotheses. -/
theorem witness_ReturnUndoesCall :
    ({ State.reset with sp := 15 } : State).sp.val < 16 ∧
    ∃ t u : State, exec (.call 0x300) { State.reset with sp := 15 } = .next t ∧ u.stk = t.stk ∧ u.sp = t.sp :=
  ⟨by decide, _, _, rfl, rfl, rfl⟩

theorem witness_LogicWorksBitByBitWithoutFlag : 0 < 8 ∧ 7 < 8 := by decide

theorem witness_AddSetsCarry : (14 : Reg) ≠ 15 := by decide

theorem witness_SubtractSetsNoBorrow : (0 : Reg) ≠ 15 := by decide

theorem witness_ReversedSubtractSetsNoBorrow : (1 : Reg) ≠ 15 := by decide

theorem witness_ShiftsMoveOneBitIntoTheFlag : (2 : Reg) ≠ 15 := by decide

theorem witness_RandomByteIsMaskedAndUsedOnce : 7 < 8 ∧ (0x0F : Byte).getLsbD 7 = false := by decide

theorem witness_DecimalDigitsAreStored :
    ({ State.reset with i := 0x0FFD } : State).indexAddr 2 < 4096 ∧
    4096 ≤ ({ State.reset with i := 0x0FFE } : State).indexAddr 2 := by decide

theorem witness_RegistersAreStoredInOrder :
    ({ State.reset with i := 0x0FF0 } : State).indexAddr (15 : Reg).val < 4096 ∧ (15 : Reg) ≤ 15 ∧
    4096 ≤ ({ State.reset with i := 0x0FF1 } : State).indexAddr (15 : Reg).val := by decide

theorem witness_RegistersAreLoadedInOrder :
    ({ State.reset with i := 0x0FFF } : State).indexAddr (0 : Reg).val < 4096 ∧
    4096 ≤ ({ State.reset with i := 0x1000 } : State).indexAddr (0 : Reg).val := by decide

theorem witness_StoredCodeIsFetchedNext :
    ({ State.reset with i := 0x0202 } : State).indexAddr (1 : Reg).val < 4096 ∧
    ({ State.reset with i := 0x0202 } : State).pc.toNat + 3 < 4096 ∧
    ({ State.reset with i := 0x0202 } : State).indexAddr (0 : Reg).val = State.reset.pc.toNat + 2 ∧
    (0 : Reg).val + 1 ≤ (1 : Reg).val := by decide

/-- The last row that fits, no row at all, and a row that covers a set pixel or none. -/
theorem witness_DrawFlipsTheCoveredPixels :
    IndexBlockInMemory { State.reset with i := 0x0FF1 } (15 : Fin 16).val ∧
    IndexBlockInMemory { State.reset with i := 0xFFFF } (0 : Fin 16).val ∧
    (∃ (row : Fin 32) (col : Fin 64), (run 0xD015 { State.reset with i := 0x0050 }).fb.pixel row col = true ∧
      spritePixel (run 0xD015 { State.reset with i := 0x0050 }) 0 1 (5 : Fin 16).val row.val col.val = true) ∧
    (∀ (row : Fin 32) (col : Fin 64), State.reset.fb.pixel row col = true →
      spritePixel { State.reset with i := 0x0050 } 0 1 (5 : Fin 16).val row.val col.val = false) := by
  refine ⟨.inr (by decide), .inl (by decide), ⟨0, 0, by decide, by decide⟩, fun row col h => ?_⟩
  simp [State.reset, Framebuffer.pixel] at h

theorem witness_DrawPastMemoryFaults :
    (0 < (15 : Fin 16).val ∧ 4096 ≤ ({ State.reset with i := 0x0FF2 } : State).indexAddr ((15 : Fin 16).val - 1)) ∧
    (0 < (1 : Fin 16).val ∧ 4096 ≤ ({ State.reset with i := 0x1000 } : State).indexAddr ((1 : Fin 16).val - 1)) := by
  decide

theorem witness_DrawingTwiceRestoresTheDisplay :
    IndexBlockInMemory { State.reset with i := 0x0050 } (5 : Fin 16).val ∧
    ∃ t u : State, exec (.drw 0 1 5) { State.reset with i := 0x0050 } = .next t ∧ u.fb = t.fb ∧
      u.i = 0x0050 ∧ u.mem = State.reset.mem ∧ u.v[(0 : Reg)] = State.reset.v[(0 : Reg)] ∧
      u.v[(1 : Reg)] = State.reset.v[(1 : Reg)] :=
  ⟨.inr (by decide), _, _, rfl, rfl, rfl, rfl, rfl, rfl⟩

theorem witness_KeySkipsTestTheKeyOfTheRegister :
    (regs [(2, 0x0F)]).v[(2 : Reg)].toNat ≤ 15 ∧ 15 < (regs [(2, 0x10)]).v[(2 : Reg)].toNat := by decide

theorem witness_KeyWaitTakesTheLeastPressedKey :
    (∀ k : Fin 16, State.reset.keys[k] = false) ∧
    ((pressed [0])[(0 : Fin 16)] = true ∧ ∀ j : Fin 16, j < 0 → (pressed [0])[j] = false) ∧
    ((pressed [15])[(15 : Fin 16)] = true ∧ ∀ j : Fin 16, j < 15 → (pressed [15])[j] = false) := by decide

theorem witness_RegistersAreWrittenOnlyAsNamed :
    (0 : Reg) ∉ namedDestinations (.addReg 1 2) ∧ ¬ (writesFlag (.addReg 1 2) = true ∧ (0 : Reg) = 15) ∧
    writesFlag (.addReg 1 2) = true ∧
    ∃ t, exec (.addReg 1 2) State.reset = .next t ∧ t.fault = none :=
  ⟨by decide, by decide, by decide, _, rfl, rfl⟩

theorem witness_OnlyCallAndReturnTouchTheStack :
    (∀ nnn, Instr.jp 0x300 ≠ .call nnn) ∧ Instr.jp 0x300 ≠ .ret ∧
    ∃ t, exec (.jp 0x300) State.reset = .next t :=
  ⟨nofun, by decide, _, rfl⟩

theorem witness_MemoryAndDisplayHaveTwoWritersEach :
    (∀ x, Instr.ldRegs 1 ≠ .ldB x) ∧ (∀ x, Instr.ldRegs 1 ≠ .stRegs x) ∧ Instr.ldRegs 1 ≠ .cls ∧
    (∀ x y n, Instr.ldRegs 1 ≠ .drw x y n) ∧ ∃ t, exec (.ldRegs 1) State.reset = .next t :=
  ⟨nofun, nofun, by decide, nofun, _, rfl⟩

theorem witness_SpecialRegistersHaveDedicatedWriters :
    (∀ n, Instr.ldImm 1 2 ≠ .ldI n) ∧ (∀ x, Instr.ldImm 1 2 ≠ .addI x) ∧ (∀ x, Instr.ldImm 1 2 ≠ .ldF x) ∧
    (∀ x, Instr.ldImm 1 2 ≠ .ldDtVx x) ∧ (∀ x, Instr.ldImm 1 2 ≠ .ldStVx x) ∧
    (∀ x nn, Instr.ldImm 1 2 ≠ .rnd x nn) ∧ ∃ t, exec (.ldImm 1 2) State.reset = .next t := by
  refine ⟨?_, ?_, ?_, ?_, ?_, ?_, _, rfl⟩ <;> intros <;> simp

theorem witness_SoundTimerIsNeverRead :
    (∃ x, Instr.ldStVx 3 = .ldStVx x) ∧ ∀ x, Instr.ldDtVx 3 ≠ .ldStVx x :=
  ⟨⟨3, rfl⟩, nofun⟩

/-- A call that overflows, and one at the last free entry that does not. -/
theorem witness_FaultsAreRaisedExactlyWhenDue :
    Running State.reset ∧
    (∃ t, exec (.call 0x300) { State.reset with sp := 16 } = .next t ∧ t.fault = some .stackOverflow) ∧
    (∃ t, exec (.call 0x300) { State.reset with sp := 15 } = .next t ∧ t.fault = none) :=
  ⟨rfl, ⟨_, rfl, rfl⟩, ⟨_, rfl, rfl⟩⟩

/-- The other clauses at the boundaries of their ranges: each fault due, and one less where it is not. -/
theorem witness_FaultsAreRaisedExactlyWhenDue_clauses :
    (after (exec .ret State.reset)).fault = some .stackUnderflow ∧
    (after (exec .ret { State.reset with sp := 1 })).fault = none ∧
    (after (exec (.skp 2) (regs [(2, 0x10)]))).fault = some .keyIndexOutOfRange ∧
    (after (exec (.sknp 2) (regs [(2, 0x0F)]))).fault = none ∧
    (after (exec (.drw 0 1 15) { State.reset with i := 0x0FF2 })).fault = some .memOutOfBounds ∧
    (after (exec (.drw 0 1 15) { State.reset with i := 0x0FF1 })).fault = none ∧
    (after (exec (.ldB 0) { State.reset with i := 0x0FFE })).fault = some .memOutOfBounds ∧
    (after (exec (.ldB 0) { State.reset with i := 0x0FFD })).fault = none ∧
    (after (exec (.stRegs 15) { State.reset with i := 0x0FF1 })).fault = some .memOutOfBounds ∧
    (after (exec (.ldRegs 15) { State.reset with i := 0x0FF0 })).fault = none := by decide

theorem witness_FaultsArePreciseAndEndTheAdvance :
    Running (fetching 0x00 0xEE 1) ∧ (fetching 0x00 0xEE 1).adv = some 1 ∧
    ∃ t, step (fetching 0x00 0xEE 1) = .next t ∧ t.fault = some .stackUnderflow :=
  ⟨rfl, rfl, _, rfl, rfl⟩

theorem witness_KeysAreConstantDuringAnAdvance :
    (fetching 0xF1 0x0A 1).adv = some 1 ∧ ∃ t, step (fetching 0xF1 0x0A 1) = .next t :=
  ⟨rfl, _, rfl⟩

theorem witness_TickLowersNonZeroTimersByOne :
    Running { State.reset with adv := some 0 } ∧ ({ State.reset with adv := some 0 } : State).adv = some 0 := by
  decide

/-- An ADVANCE of one step that faults nowhere. -/
theorem witness_AdvanceRunsItsStepsAndTicksOnce :
    (fetching 0x60 0x05 1).adv = some 1 ∧
    ∀ k ≤ 1, ∀ u : State, Sys2Proof.core.run k (fetching 0x60 0x05 1) = .next u → Running u := by
  refine ⟨rfl, fun k hk u h => ?_⟩
  have hk : k = 0 ∨ k = 1 := by omega
  obtain rfl | rfl := hk <;> (cases h; rfl)

theorem witness_AdvanceBeginsUnlessFaulted :
    ((asked (.advance 3)).adv = none ∧ (asked (.advance 3)).script = .advance 3 :: [] ∧
      Running (asked (.advance 3))) ∧
    ((faulted [.advance 3]).adv = none ∧ (faulted [.advance 3]).script = .advance 3 :: [] ∧
      (faulted [.advance 3]).fault = some .stackOverflow) := by decide

theorem witness_MachineIsIdleWithoutTransactions :
    (State.reset.adv = none ∧ State.reset.script = [] ∧ Running State.reset) ∧
    ((faulted []).adv = none ∧ (faulted []).script = [] ∧ (faulted []).fault = some .stackOverflow) := by decide

/-- A faulted machine steps under an ADVANCE, which leaves it so, and under RESET, which does not. -/
theorem witness_OnlyResetAndLoadLeaveTheFault :
    ((faulted [.advance 1]).fault = some .stackOverflow ∧ ∃ t, step (faulted [.advance 1]) = .next t) ∧
    ((faulted [.reset]).fault = some .stackOverflow ∧ ∃ t, step (faulted [.reset]) = .next t ∧ Running t) :=
  ⟨⟨rfl, _, rfl⟩, rfl, _, rfl, rfl⟩

theorem witness_ResetReinitialisesEverything :
    (faulted [.reset]).adv = none ∧ (faulted [.reset]).script = .reset :: [] := by decide

theorem witness_LoadResetsAndCopiesTheImage :
    (asked (.load (List.replicate 3584 0))).adv = none ∧
    (asked (.load (List.replicate 3584 0))).script = .load (List.replicate 3584 0) :: [] ∧
    (List.replicate 3584 (0 : Byte)).length ≤ 3584 := ⟨rfl, rfl, by rw [List.length_replicate]⟩

theorem witness_OversizedLoadChangesNothing :
    (asked (.load (List.replicate 3585 0))).adv = none ∧
    (asked (.load (List.replicate 3585 0))).script = .load (List.replicate 3585 0) :: [] ∧
    3584 < (List.replicate 3585 (0 : Byte)).length :=
  ⟨rfl, rfl, by rw [List.length_replicate]; decide⟩

theorem witness_SetKeysReplacesTheKeyVector :
    (faulted [.setKeys (pressed [7])]).adv = none ∧
    (faulted [.setKeys (pressed [7])]).script = .setKeys (pressed [7]) :: [] := by decide

/-- Two writes in either order give memories that read alike. -/
theorem witness_CanonicalMemoryIsDeterminedByItsBytes :
    Memory.wf (Memory.write (Memory.write [] 0x300 1) 0x200 2) ∧
    Memory.wf (Memory.write (Memory.write [] 0x200 2) 0x300 1) ∧
    ∀ a, (Memory.write (Memory.write [] 0x300 1) 0x200 2).read a =
      (Memory.write (Memory.write [] 0x200 2) 0x300 1).read a :=
  ⟨by decide, by decide, fun _ => rfl⟩

/-- The invariants hold of a state in which a store runs next. -/
theorem witness_StepKeepsMemoryCanonical :
    MemoryCanonical (fetching 0xF0 0x55 1) ∧ ∃ t, step (fetching 0xF0 0x55 1) = .next t :=
  ⟨by decide, _, rfl⟩

theorem witness_StepKeepsControlBounded :
    ControlBounded (fetching 0x23 0x00 1) ∧ ∃ t, step (fetching 0x23 0x00 1) = .next t :=
  ⟨⟨by decide, fun _ h => absurd h (Nat.not_lt_zero _)⟩, _, rfl⟩

/-- The largest `PC`: `BNNN` reaches it, and the next step faults there. -/
theorem witness_StepKeepsControlBounded_largest :
    ControlBounded { State.reset with pc := 0x10FE, adv := some 1 } ∧
    ∃ t, step { State.reset with pc := 0x10FE, adv := some 1 } = .next t ∧ t.fault = some .memOutOfBounds :=
  ⟨⟨by decide, fun _ h => absurd h (Nat.not_lt_zero _)⟩, _, rfl, rfl⟩

theorem witness_StepKeepsFaultEndedAdvance :
    (FaultEndedAdvance (fetching 0x00 0xEE 1) ∧ ∃ t, step (fetching 0x00 0xEE 1) = .next t) ∧
    FaultEndedAdvance (faulted [.reset]) :=
  ⟨⟨fun h => absurd rfl h, _, rfl⟩, fun _ => rfl⟩

end Sys2Proof.Tests
end

/-! SUPPORT. Control flow: what the moves of `PC` come to, as the claims say it, and after that the jumps
and the register skips. -/

namespace Sys2Proof.Machine

open Sys2Proof.Safety

/-! ## Moves of `PC` -/

theorem State.goto_onlyPc (s : State) (a : Word16) : OnlyPc s (s.goto a) := rfl

/-- A skip moves `PC` alone (rule R109). -/
theorem State.skipIf_onlyPc (s : State) (c : Bool) : OnlyPc s (s.skipIf c) := s.goto_onlyPc _

theorem State.skipIf_pcSkipped (s : State) (c : Bool) : PcSkipped s (s.skipIf c) c := by
  cases c with
  | false => simp [PcSkipped]
  | true => simp [PcSkipped]

/-! ## Jump targets -/

theorem jumpTarget_toNat (nnn : BitVec 12) : (jumpTarget nnn).toNat = nnn.toNat :=
  BitVec.toNat_setWidth_of_le (by decide)

/-- The sum is at most 0xFFF + 0xFF, below 65536, so it is exact (rule R108). -/
theorem State.offsetTarget_toNat (s : State) (nnn : BitVec 12) :
    (s.offsetTarget nnn).toNat = nnn.toNat + (s.reg 0).toNat := by
  have hnnn : (zextAddr nnn).toNat = nnn.toNat := BitVec.toNat_setWidth_of_le (by decide)
  have hoff : (zextByte (s.reg 0)).toNat = (s.reg 0).toNat := BitVec.toNat_setWidth_of_le (by decide)
  have hlt : nnn.toNat + (s.reg 0).toNat < 2 ^ 16 := by omega
  rw [State.offsetTarget, BitVec.toNat_add, hnnn, hoff, Nat.mod_eq_of_lt hlt]

/-! ## Comparisons of bytes -/

theorem byte_beq_eq_decide_toNat (a b : Byte) : (a == b) = decide (a.toNat = b.toNat) := by
  rw [beq_eq_decide, decide_eq_decide, BitVec.toNat_inj]

theorem byte_bne_eq_decide_toNat (a b : Byte) : (a != b) = decide (a.toNat ≠ b.toNat) := by
  rw [bne, byte_beq_eq_decide_toNat, decide_not]

/-! ## The skips, with the comparison on numbers -/

theorem exec_seImm_eq (x : Reg) (nn : Byte) (s : State) :
    exec (.seImm x nn) s = .next (s.skipIf (decide (s.v[x].toNat = nn.toNat))) := by
  rw [exec, execSeImm, byte_beq_eq_decide_toNat]

theorem exec_sneImm_eq (x : Reg) (nn : Byte) (s : State) :
    exec (.sneImm x nn) s = .next (s.skipIf (decide (s.v[x].toNat ≠ nn.toNat))) := by
  rw [exec, execSneImm, byte_bne_eq_decide_toNat]

theorem exec_seReg_eq (x y : Reg) (s : State) :
    exec (.seReg x y) s = .next (s.skipIf (decide (s.v[x].toNat = s.v[y].toNat))) := by
  rw [exec, execSeReg, byte_beq_eq_decide_toNat]

theorem exec_sneReg_eq (x y : Reg) (s : State) :
    exec (.sneReg x y) s = .next (s.skipIf (decide (s.v[x].toNat ≠ s.v[y].toNat))) := by
  rw [exec, execSneReg, byte_bne_eq_decide_toNat]

/-- What every instruction that answers with a skip does. -/
theorem skips_of_exec_eq {i : Instr} {s : State} {taken : Bool} (h : exec i s = .next (s.skipIf taken)) :
    ∃ t, exec i s = .next t ∧ OnlyPc s t ∧ PcSkipped s t taken :=
  ⟨_, h, s.skipIf_onlyPc taken, s.skipIf_pcSkipped taken⟩

/-! ## The statements -/

/-- Settles O11: `1NNN` moves `PC` alone, to the zero-extended address. -/
theorem jumpSetsPcOnly : Obligations.JumpSetsPcOnly := fun nnn s =>
  ⟨s.goto (jumpTarget nnn), rfl, s.goto_onlyPc _, jumpTarget_toNat nnn⟩

/-- Settles O14: both instructions answer with a skip on the comparison of `V[X]` with `NN`. -/
theorem immediateSkipsCompareOneRegister : Obligations.ImmediateSkipsCompareOneRegister := fun x nn s =>
  ⟨skips_of_exec_eq (exec_seImm_eq x nn s), skips_of_exec_eq (exec_sneImm_eq x nn s)⟩

/-- Settles O15: both instructions answer with a skip on the comparison of `V[X]` with `V[Y]`. -/
theorem registerSkipsCompareTwoRegisters : Obligations.RegisterSkipsCompareTwoRegisters := fun x y s =>
  ⟨skips_of_exec_eq (exec_seReg_eq x y s), skips_of_exec_eq (exec_sneReg_eq x y s)⟩

/-- Settles O16: `BNNN` moves `PC` alone, to a sum that does not reach 65536. -/
theorem offsetJumpAddsRegisterZero : Obligations.OffsetJumpAddsRegisterZero := fun nnn s =>
  ⟨s.goto (s.offsetTarget nnn), rfl, s.goto_onlyPc _, s.offsetTarget_toNat nnn⟩

end Sys2Proof.Machine

/-! SUPPORT. Register load and arithmetic: what the two shared ways to end such an instruction come to, as the
claims say it, and after that the loads, the additions and the subtraction. -/

namespace Sys2Proof.Machine

open Sys2Proof.Safety

/-! ## One register -/

theorem State.v_setReg_same (s : State) (x : Reg) (b : Byte) : (s.setReg x b).v[x] = b := by
  rw [State.v_setReg, if_pos rfl]

/-- A register write touches no other register (rule R20). -/
theorem State.setReg_regsKeptBut (s : State) (x : Reg) (b : Byte) : RegsKeptBut [x] s (s.setReg x b) := by
  intro r hr
  have hne : x ≠ r := fun h => hr (h ▸ List.mem_singleton_self x)
  rw [State.v_setReg, if_neg hne]

/-- What every instruction that answers with one register written and the next instruction in line does. -/
theorem setsOneReg_of_exec_eq {i : Instr} {s : State} {x : Reg} {b : Byte}
    (h : exec i s = .next (s.setReg x b).sequential) :
    ∃ t, exec i s = .next t ∧ OnlyRegsPc s t ∧ PcSequential s t ∧ RegsKeptBut [x] s t ∧ t.v[x] = b :=
  ⟨_, h, rfl, (s.setReg x b).sequential_pc_toNat, s.setReg_regsKeptBut x b, s.v_setReg_same x b⟩

/-! ## A result and a flag -/

theorem State.v_resultThenFlag_of_ne_flagReg (s : State) {x : Reg} (hx : x ≠ flagReg) (r f : Byte) :
    (s.resultThenFlag x r f).v[x] = r := by
  rw [State.v_resultThenFlag, if_neg hx, if_pos rfl]

/-- The flag is written last, so it remains for `X = F` too (rule R131). -/
theorem State.v_resultThenFlag_flagReg (s : State) (x : Reg) (r f : Byte) :
    (s.resultThenFlag x r f).v[flagReg] = f := by
  rw [State.v_resultThenFlag, if_pos rfl]

theorem State.resultThenFlag_regsKeptBut (s : State) (x : Reg) (r f : Byte) :
    RegsKeptBut [x, flagReg] s (s.resultThenFlag x r f) := by
  intro y hy
  obtain ⟨hyx, hyf⟩ : y ≠ x ∧ y ≠ flagReg := by simpa using hy
  rw [State.v_resultThenFlag, if_neg hyf, if_neg hyx.symm]

theorem State.resultThenFlag_pcSequential (s : State) (x : Reg) (r f : Byte) :
    PcSequential s (s.resultThenFlag x r f) :=
  ((s.setReg x r).setReg flagReg f).sequential_pc_toNat

/-- What every instruction that answers with a result and a flag does, with both as numbers. -/
theorem setsResultAndFlag_of_exec_eq {i : Instr} {s : State} {x : Reg} {r f : Byte} {result flag : Nat}
    (h : exec i s = .next (s.resultThenFlag x r f)) (hr : r.toNat = result) (hf : f.toNat = flag) :
    ∃ t, exec i s = .next t ∧ OnlyRegsPc s t ∧ PcSequential s t ∧ RegsKeptBut [x, 15] s t ∧
      (x ≠ 15 → t.v[x].toNat = result) ∧ t.v[15].toNat = flag := by
  have hresult : x ≠ 15 → (s.resultThenFlag x r f).v[x].toNat = result := fun hx => by
    rw [s.v_resultThenFlag_of_ne_flagReg hx, hr]
  have hflag : (s.resultThenFlag x r f).v[flagReg].toNat = flag := by
    rw [s.v_resultThenFlag_flagReg, hf]
  exact ⟨_, h, rfl, s.resultThenFlag_pcSequential x r f, s.resultThenFlag_regsKeptBut x r f, hresult, hflag⟩

/-! ## The subtraction of bytes -/

/-- `BitVec.toNat_sub` in the form of the rules R127 and R129, with the minuend first. -/
theorem byte_sub_toNat (a b : Byte) : (a - b).toNat = (a.toNat + 256 - b.toNat) % 256 := by
  have hb : b.toNat < 256 := b.isLt
  have hsum : 2 ^ 8 - b.toNat + a.toNat = a.toNat + 256 - b.toNat := by omega
  rw [BitVec.toNat_sub, hsum]

/-! ## The statements -/

/-- Settles O17: both instructions answer with the one register written. -/
theorem loadsSetOneRegister : Obligations.LoadsSetOneRegister := by
  intro x y nn s
  have himm : exec (.ldImm x nn) s = .next (s.setReg x nn).sequential := rfl
  have hreg : exec (.ldReg x y) s = .next (s.setReg x s.v[y]).sequential := rfl
  exact ⟨setsOneReg_of_exec_eq himm, setsOneReg_of_exec_eq hreg⟩

/-- Settles O18: the one register written takes the sum of the two bytes, which wraps, and no flag is written. -/
theorem addImmediateWrapsWithoutFlag : Obligations.AddImmediateWrapsWithoutFlag := by
  intro x nn s
  have hadd : exec (.addImm x nn) s = .next (s.setReg x (s.v[x] + nn)).sequential := rfl
  obtain ⟨t, hexec, honly, hpc, hkept, hsum⟩ := setsOneReg_of_exec_eq hadd
  exact ⟨t, hexec, honly, hpc, hkept, hsum ▸ BitVec.toNat_add s.v[x] nn⟩

/-- Settles O20: the result is the sum of the two registers as they were, and the flag its carry. -/
theorem addSetsCarry : Obligations.AddSetsCarry := by
  intro x y s
  have hadd : exec (.addReg x y) s =
      .next (s.resultThenFlag x (s.v[x] + s.v[y]) (carryFlag s.v[x] s.v[y])) := rfl
  exact setsResultAndFlag_of_exec_eq hadd (BitVec.toNat_add s.v[x] s.v[y]) (carryFlag_toNat s.v[x] s.v[y])

/-- Settles O21: the result is the difference of the two registers as they were, and the flag says that the
subtraction did not borrow. -/
theorem subtractSetsNoBorrow : Obligations.SubtractSetsNoBorrow := by
  intro x y s
  have hsub : exec (.sub x y) s =
      .next (s.resultThenFlag x (s.v[x] - s.v[y]) (noBorrowFlag s.v[x] s.v[y])) := rfl
  exact setsResultAndFlag_of_exec_eq hsub (byte_sub_toNat s.v[x] s.v[y]) (noBorrowFlag_toNat s.v[x] s.v[y])

end Sys2Proof.Machine

/-! SUPPORT. The index register: what a write of `I` comes to, as the claims say it, and after that its load
and its addition. -/

namespace Sys2Proof.Machine

open Sys2Proof.Safety

/-! ## The index register -/

/-- What every instruction that answers with `I` written and the next instruction in line does. -/
theorem setsIndex_of_exec_eq {i : Instr} {s : State} {a : Word16} {index : Nat}
    (h : exec i s = .next (s.setI a).sequential) (ha : a.toNat = index) :
    ∃ t, exec i s = .next t ∧ t = { s with pc := t.pc, i := t.i } ∧ PcSequential s t ∧ t.i.toNat = index :=
  ⟨_, h, rfl, (s.setI a).sequential_pc_toNat, ha⟩

/-- An added byte is zero-extended, and the sum wraps at 65536 (rule R141). -/
theorem word_add_zextByte_toNat (a : Word16) (b : Byte) :
    (a + zextByte b).toNat = (a.toNat + b.toNat) % 65536 := by
  have hb : (zextByte b).toNat = b.toNat := BitVec.toNat_setWidth_of_le (by decide)
  rw [BitVec.toNat_add, hb]

/-! ## The statement -/

/-- Settles O25: both instructions write `I` alone, `ANNN` with the zero-extended address and `FX1E` with the
wrapped sum. -/
theorem indexIsLoadedAndAddedTo : Obligations.IndexIsLoadedAndAddedTo := by
  intro nnn x s
  have hload : exec (.ldI nnn) s = .next (s.setI (zextAddr nnn)).sequential := rfl
  have hadd : exec (.addI x) s = .next (s.setI (s.i + zextByte s.v[x])).sequential := rfl
  have hnnn : (zextAddr nnn).toNat = nnn.toNat := BitVec.toNat_setWidth_of_le (by decide)
  exact ⟨setsIndex_of_exec_eq hload hnnn, setsIndex_of_exec_eq hadd (word_add_zextByte_toNat s.i s.v[x])⟩

end Sys2Proof.Machine

/-! SUPPORT. The full clear of the display. -/

namespace Sys2Proof.Machine

open Sys2Proof.Safety

/-- Settles O31: `00E0` answers with the clear display written and the next instruction in line. -/
theorem clearTurnsEveryPixelOff : Obligations.ClearTurnsEveryPixelOff := by
  intro s
  have hclear : exec .cls s = .next (s.setFb Framebuffer.clear).sequential := rfl
  exact ⟨_, hclear, rfl, (s.setFb Framebuffer.clear).sequential_pc_toNat, Framebuffer.pixel_clear⟩

end Sys2Proof.Machine

/-! SUPPORT. The key wait and the timers. -/

namespace Sys2Proof.Machine

open Sys2Proof.Safety

/-! ## The key wait -/

theorem exec_ldVxK_of_no_key (x : Reg) {s : State} (hnone : leastKey s.keys = none) :
    exec (.ldVxK x) s = .next s := by
  rw [exec, execLdVxK, hnone]

theorem exec_ldVxK_of_leastKey (x : Reg) {s : State} {k : Fin 16} (hk : leastKey s.keys = some k) :
    exec (.ldVxK x) s = .next (s.setReg x (BitVec.ofNat 8 k.val)).sequential := by
  rw [exec, execLdVxK, hk]

/-- A key's index is at most 15, so a register holds it exactly. -/
theorem keyByte_toNat (k : Fin 16) : (BitVec.ofNat 8 k.val).toNat = k.val :=
  Nat.mod_eq_of_lt (by omega)

/-! ## The statements -/

/-- Settles O36: with no key pressed there is no least key and the step answers its own state; with one, the
one register written takes its index. -/
theorem keyWaitTakesTheLeastPressedKey : Obligations.KeyWaitTakesTheLeastPressedKey := by
  intro x s
  constructor
  · intro hnone
    exact exec_ldVxK_of_no_key x ((leastKey_none s.keys).mpr hnone)
  · intro k hpressed hleast
    have hk : leastKey s.keys = some k := (leastKey_some s.keys k).mpr ⟨hpressed, hleast⟩
    obtain ⟨t, hexec, honly, hpc, hkept, hkey⟩ := setsOneReg_of_exec_eq (exec_ldVxK_of_leastKey x hk)
    exact ⟨t, hexec, honly, hpc, hkept, hkey ▸ keyByte_toNat k⟩

/-- Settles O37: `FX07` answers with the one register written, with `DT`. -/
theorem delayTimerIsRead : Obligations.DelayTimerIsRead := by
  intro x s
  have hread : exec (.ldVxDt x) s = .next (s.setReg x s.dt).sequential := rfl
  exact setsOneReg_of_exec_eq hread

/-- Settles O38: each instruction answers with its own timer written, with `V[X]`. -/
theorem timersAreSet : Obligations.TimersAreSet := by
  intro x s
  have hdt : exec (.ldDtVx x) s = .next (s.setDt s.v[x]).sequential := rfl
  have hst : exec (.ldStVx x) s = .next (s.setSt s.v[x]).sequential := rfl
  exact ⟨⟨_, hdt, rfl, (s.setDt s.v[x]).sequential_pc_toNat⟩,
    ⟨_, hst, rfl, (s.setSt s.v[x]).sequential_pc_toNat⟩⟩

end Sys2Proof.Machine

/-! SUPPORT. The decoder and the encoder are inverse to each other, and the words the decoder refuses. -/

namespace Sys2Proof

/-! ## The fields of a word as numbers (rule R71) -/

theorem opField_eq_div (w : Word16) : opField w = w.toNat / 4096 := by
  have hlt : w.toNat < 65536 := w.isLt
  rw [opField, BitVec.extractLsb'_toNat, Nat.shiftRight_eq_div_pow]
  omega

theorem nField_val (w : Word16) : (nField w).val = w.toNat % 16 := rfl

theorem nnField_toNat (w : Word16) : (nnField w).toNat = w.toNat % 256 := rfl

/-! ## A word of a known family, from its own fields -/

theorem formatNNN_of_opField {w : Word16} {op : BitVec 4} (h : opField w = op.toNat) :
    formatNNN op (nnnField w) = w := by
  simpa [h] using formatNNN_fields w

theorem formatXNN_of_opField {w : Word16} {op : BitVec 4} (h : opField w = op.toNat) :
    formatXNN op (xField w) (nnField w) = w := by
  simpa [h] using formatXNN_fields w

theorem formatXYN_of_opField {w : Word16} {op : BitVec 4} (h : opField w = op.toNat) :
    formatXYN op (xField w) (yField w) (nField w) = w := by
  simpa [h] using formatXYN_fields w

theorem formatXYN_of_opField_of_nField {w : Word16} {op : BitVec 4} {n : Fin 16} (h : opField w = op.toNat)
    (hn : nField w = n) : formatXYN op (xField w) (yField w) n = w := hn ▸ formatXYN_of_opField h

theorem formatXNN_of_toNat_eq {op : BitVec 4} {x : Reg} {m n : Byte} (h : n.toNat = m.toNat) :
    formatXNN op x m = formatXNN op x n := by rw [BitVec.eq_of_toNat_eq h]

theorem formatXYN_of_val_eq {op : BitVec 4} {x y : Reg} {m n : Fin 16} (h : n.val = m.val) :
    formatXYN op x y m = formatXYN op x y n := by rw [Fin.ext h]

/-! ## What each family with more than one instruction decodes to -/

theorem decode0_inverts {w : Word16} (h : opField w = 0) :
    (decode0 w).wellFormed = true ∧ encode (decode0 w) = w := by
  have hw : formatNNN 0x0 (nnnField w) = w := formatNNN_of_opField h
  by_cases hcls : w = 0x00E0#16
  · subst hcls; decide
  by_cases hret : w = 0x00EE#16
  · subst hret; decide
  have hsys : decode0 w = .sys (nnnField w) := by rw [decode0, if_neg hcls, if_neg hret]
  have hE0 : nnnField w ≠ 0x0E0#12 := fun e => hcls (by rw [← hw, e]; rfl)
  have hEE : nnnField w ≠ 0x0EE#12 := fun e => hret (by rw [← hw, e]; rfl)
  rw [hsys]
  exact ⟨by simp [Instr.wellFormed, sysAddrFree, hE0, hEE], hw⟩

theorem decode8_inverts {x y : Reg} {n : Fin 16} {i : Instr} (h : decode8 x y n.val = .ok i) :
    i.wellFormed = true ∧ encode i = formatXYN 0x8 x y n := by
  unfold decode8 at h
  split at h <;> cases h <;> rename_i hn <;> exact ⟨rfl, formatXYN_of_val_eq hn⟩

theorem decodeE_inverts {x : Reg} {nn : Byte} {i : Instr} (h : decodeE x nn.toNat = .ok i) :
    i.wellFormed = true ∧ encode i = formatXNN 0xE x nn := by
  unfold decodeE at h
  split at h <;> cases h <;> rename_i hn <;> exact ⟨rfl, formatXNN_of_toNat_eq hn⟩

theorem decodeF_inverts {x : Reg} {nn : Byte} {i : Instr} (h : decodeF x nn.toNat = .ok i) :
    i.wellFormed = true ∧ encode i = formatXNN 0xF x nn := by
  unfold decodeF at h
  split at h <;> cases h <;> rename_i hn <;> exact ⟨rfl, formatXNN_of_toNat_eq hn⟩

/-! ## Which words each family refuses -/

theorem decode8_refuses_iff {x y : Reg} {n : Nat} (hn : n < 16) :
    (∃ r, decode8 x y n = .error r) ↔ n ∈ [0x8, 0x9, 0xA, 0xB, 0xC, 0xD, 0xF] := by
  interval_cases n <;> simp [decode8]

theorem decodeE_refuses_iff {x : Reg} {nn : Nat} :
    (∃ r, decodeE x nn = .error r) ↔ nn ∉ [0x9E, 0xA1] := by
  unfold decodeE
  split <;> simp_all

theorem decodeF_refuses_iff {x : Reg} {nn : Nat} :
    (∃ r, decodeF x nn = .error r) ↔ nn ∉ [0x07, 0x0A, 0x15, 0x18, 0x1E, 0x29, 0x33, 0x55, 0x65] := by
  unfold decodeF
  split <;> simp_all

/-- Families 5 and 9: one instruction, under a condition. -/
theorem guarded_refuses_iff {p : Prop} [Decidable p] {i : Instr} {e : Reject} :
    (∃ r, (if p then .ok i else .error e : Except Reject Instr) = .error r) ↔ ¬ p := by
  split <;> simp_all

/-! ## The statements -/

/-- Settles O1: the instruction's own round trip, for each of the 35. -/
theorem decodeInvertsEncode : Obligations.DecodeInvertsEncode := by
  intro i
  cases i with
  | cls => exact Laws.RoundTrip.cls
  | ret => exact Laws.RoundTrip.ret
  | sys nnn => exact Laws.RoundTrip.sys nnn
  | jp nnn => exact Laws.RoundTrip.jp nnn
  | call nnn => exact Laws.RoundTrip.call nnn
  | seImm x nn => exact Laws.RoundTrip.seImm x nn
  | sneImm x nn => exact Laws.RoundTrip.sneImm x nn
  | seReg x y => exact Laws.RoundTrip.seReg x y
  | ldImm x nn => exact Laws.RoundTrip.ldImm x nn
  | addImm x nn => exact Laws.RoundTrip.addImm x nn
  | ldReg x y => exact Laws.RoundTrip.ldReg x y
  | orReg x y => exact Laws.RoundTrip.orReg x y
  | andReg x y => exact Laws.RoundTrip.andReg x y
  | xorReg x y => exact Laws.RoundTrip.xorReg x y
  | addReg x y => exact Laws.RoundTrip.addReg x y
  | sub x y => exact Laws.RoundTrip.sub x y
  | shr x y => exact Laws.RoundTrip.shr x y
  | subn x y => exact Laws.RoundTrip.subn x y
  | shl x y => exact Laws.RoundTrip.shl x y
  | sneReg x y => exact Laws.RoundTrip.sneReg x y
  | ldI nnn => exact Laws.RoundTrip.ldI nnn
  | jpV0 nnn => exact Laws.RoundTrip.jpV0 nnn
  | rnd x nn => exact Laws.RoundTrip.rnd x nn
  | drw x y n => exact Laws.RoundTrip.drw x y n
  | skp x => exact Laws.RoundTrip.skp x
  | sknp x => exact Laws.RoundTrip.sknp x
  | ldVxDt x => exact Laws.RoundTrip.ldVxDt x
  | ldVxK x => exact Laws.RoundTrip.ldVxK x
  | ldDtVx x => exact Laws.RoundTrip.ldDtVx x
  | ldStVx x => exact Laws.RoundTrip.ldStVx x
  | addI x => exact Laws.RoundTrip.addI x
  | ldF x => exact Laws.RoundTrip.ldF x
  | ldB x => exact Laws.RoundTrip.ldB x
  | stRegs x => exact Laws.RoundTrip.stRegs x
  | ldRegs x => exact Laws.RoundTrip.ldRegs x

/-- Settles O2: the word of a family with one instruction is put together from its own fields, and so is a word of
families 0, 8, E and F, whose instruction the rest of the word selects. -/
theorem encodeInvertsDecode : Obligations.EncodeInvertsDecode := by
  intro w i h
  have hlt := opField_lt w
  unfold decodeWord at h
  split at h
  case h_1 hop => cases h; exact decode0_inverts hop
  case h_6 hop =>
    split at h <;> cases h
    exact ⟨rfl, formatXYN_of_opField_of_nField hop ‹_›⟩
  case h_9 hop =>
    obtain ⟨hwf, henc⟩ := decode8_inverts h
    exact ⟨hwf, henc.trans (formatXYN_of_opField hop)⟩
  case h_10 hop =>
    split at h <;> cases h
    exact ⟨rfl, formatXYN_of_opField_of_nField hop ‹_›⟩
  case h_14 hop => cases h; exact ⟨rfl, formatXYN_of_opField hop⟩
  case h_15 hop =>
    obtain ⟨hwf, henc⟩ := decodeE_inverts h
    exact ⟨hwf, henc.trans (formatXNN_of_opField hop)⟩
  case h_16 =>
    obtain ⟨hwf, henc⟩ := decodeF_inverts h
    simp only [imp_false] at *
    have hop : opField w = 0xF := by omega
    exact ⟨hwf, henc.trans (formatXNN_of_opField hop)⟩
  case h_2 hop | h_3 hop | h_11 hop | h_12 hop => cases h; exact ⟨rfl, formatNNN_of_opField hop⟩
  case h_4 hop | h_5 hop | h_7 hop | h_8 hop | h_13 hop => cases h; exact ⟨rfl, formatXNN_of_opField hop⟩

/-- Settles O3: family by family, with the fields of the word as parts of its number. -/
theorem rejectedWordsAreTheInvalidOnes : Obligations.RejectedWordsAreTheInvalidOnes := by
  intro w
  have hlt := opField_lt w
  have hn : nField w = 0 ↔ w.toNat % 16 = 0 := by rw [Fin.ext_iff, nField_val]; rfl
  unfold decodeWord Safety.InvalidWord
  simp only [← opField_eq_div]
  split
  case h_6 hop => simp [guarded_refuses_iff, hop, hn]
  case h_9 hop => rw [decode8_refuses_iff (nField w).isLt, nField_val]; simp [hop]
  case h_10 hop => simp [guarded_refuses_iff, hop, hn]
  case h_15 hop => simp [decodeE_refuses_iff, nnField_toNat, hop]
  case h_16 =>
    simp only [imp_false] at *
    have hop : opField w = 0xF := by omega
    simp [decodeF_refuses_iff, nnField_toNat, hop]
  all_goals rename_i hop; simp [hop]

/-- Settles O4: the fifteen words, decoded. -/
theorem sampleWordsDecodeAsListed : Obligations.SampleWordsDecodeAsListed := by
  unfold Obligations.SampleWordsDecodeAsListed
  decide

end Sys2Proof

/-! SUPPORT. The instructions that can fault, forwards: on which states each answers what. -/

namespace Sys2Proof.Machine

open Sys2Proof.Safety

theorem State.raise_faultLatched (s : State) (c : Cause) : FaultLatched c s (s.raise c) := rfl

/-- What every instruction that answers with a fault does (rule R176). -/
theorem faults_of_exec_eq {i : Instr} {s : State} {c : Cause} (h : exec i s = .next (s.raise c)) :
    ∃ t, exec i s = .next t ∧ FaultLatched c s t := ⟨_, h, s.raise_faultLatched c⟩

section Forward
variable {s : State}

/-! ## The call stack -/

theorem exec_ret_of_empty (h : s.sp.val = 0) : exec .ret s = .next (s.raise .stackUnderflow) := by
  rw [exec, execRet, State.pop_none s h]

theorem exec_ret_of_pos (h : 0 < s.sp.val) :
    exec .ret s = .next { s with sp := ⟨s.sp.val - 1, by omega⟩, pc := s.stk[s.sp.val - 1]'(by omega) + 2 } := by
  rw [exec, execRet, State.pop_some s h]; rfl

theorem exec_call_of_full (nnn : BitVec 12) (h : s.sp.val = 16) :
    exec (.call nnn) s = .next (s.raise .stackOverflow) := by
  rw [exec, execCall, State.push_none s _ h]

theorem exec_call_of_free (nnn : BitVec 12) (h : s.sp.val < 16) :
    exec (.call nnn) s = .next { s with
      stk := s.stk.set s.sp.val s.pc, sp := ⟨s.sp.val + 1, by omega⟩, pc := jumpTarget nnn } := by
  rw [exec, execCall, State.push_some s _ h]; rfl

/-! ## Keys -/

section Keys
variable {x : Reg}

theorem exec_skp_of_key (h : (s.reg x).toNat < 16) :
    exec (.skp x) s = .next (s.skipIf s.keys[(s.reg x).toNat]) := by
  rw [exec, execSkp, State.key_some s _ h]

theorem exec_skp_of_no_key (h : 15 < (s.reg x).toNat) :
    exec (.skp x) s = .next (s.raise .keyIndexOutOfRange) := by
  rw [exec, execSkp, State.key_none s _ h]

theorem exec_sknp_of_key (h : (s.reg x).toNat < 16) :
    exec (.sknp x) s = .next (s.skipIf !s.keys[(s.reg x).toNat]) := by
  rw [exec, execSknp, State.key_some s _ h]

theorem exec_sknp_of_no_key (h : 15 < (s.reg x).toNat) :
    exec (.sknp x) s = .next (s.raise .keyIndexOutOfRange) := by
  rw [exec, execSknp, State.key_none s _ h]

end Keys

/-! ## Memory at `I` -/

/-- A block of `k + 1` bytes is in memory when its last byte is (rule R55). -/
theorem State.indexBlockExists_succ_iff (s : State) (k : Nat) :
    s.indexBlockExists (k + 1) = true ↔ s.indexAddr k < 4096 := addrExists_iff _

theorem State.not_indexBlockExists_succ {k : Nat} (h : 4096 ≤ s.indexAddr k) :
    ¬ s.indexBlockExists (k + 1) = true := fun he => Nat.not_lt.mpr h ((s.indexBlockExists_succ_iff k).mp he)

theorem exec_drw_of_inMemory {x y : Reg} {n : Fin 16} (h : n.val = 0 ∨ s.i.toNat + n.val - 1 < 4096) :
    exec (.drw x y n) s = .next ((s.setFb (s.spriteDrawn x y n.val).1).setReg flagReg
      (collisionFlag (s.spriteDrawn x y n.val).2)).sequential :=
  if_pos ((s.indexBlockExists_iff n.val).mpr h)

theorem exec_drw_of_pastMemory {x y : Reg} {n : Fin 16} (hpos : 0 < n.val)
    (hpast : 4096 ≤ s.i.toNat + n.val - 1) : exec (.drw x y n) s = .next (s.raise .memOutOfBounds) :=
  if_neg fun he => by have := (s.indexBlockExists_iff n.val).mp he; omega

section Blocks
variable {x : Reg}

theorem exec_ldB_of_inMemory (h : s.indexAddr 2 < 4096) :
    exec (.ldB x) s = .next (s.storeAtI (bcdDigits (s.reg x))).sequential :=
  if_pos ((s.indexBlockExists_succ_iff 2).mpr h)

theorem exec_ldB_of_pastMemory (h : 4096 ≤ s.indexAddr 2) :
    exec (.ldB x) s = .next (s.raise .memOutOfBounds) :=
  if_neg (State.not_indexBlockExists_succ h)

theorem exec_stRegs_of_inMemory (h : s.indexAddr x.val < 4096) :
    exec (.stRegs x) s = .next (s.storeAtI (s.regsUpTo x)).sequential :=
  if_pos ((s.indexBlockExists_succ_iff x.val).mpr h)

theorem exec_stRegs_of_pastMemory (h : 4096 ≤ s.indexAddr x.val) :
    exec (.stRegs x) s = .next (s.raise .memOutOfBounds) :=
  if_neg (State.not_indexBlockExists_succ h)

theorem exec_ldRegs_of_inMemory (h : s.indexAddr x.val < 4096) :
    exec (.ldRegs x) s = .next (s.setRegs (s.regsLoaded x)).sequential :=
  if_pos ((s.indexBlockExists_succ_iff x.val).mpr h)

theorem exec_ldRegs_of_pastMemory (h : 4096 ≤ s.indexAddr x.val) :
    exec (.ldRegs x) s = .next (s.raise .memOutOfBounds) :=
  if_neg (State.not_indexBlockExists_succ h)

end Blocks

end Forward

/-! ## The statements -/

/-- Settles O9: a stack that is not empty is popped, and an empty one faults. -/
theorem returnPopsTheCallStack : Obligations.ReturnPopsTheCallStack := by
  intro s
  constructor
  · intro hpos
    exact ⟨_, exec_ret_of_pos hpos, rfl, Nat.sub_add_cancel hpos, BitVec.toNat_add _ _⟩
  · intro hempty
    exact faults_of_exec_eq (exec_ret_of_empty hempty)

/-- Settles O12: a free entry takes the call's own address, and a full stack faults. -/
theorem callPushesItsOwnAddress : Obligations.CallPushesItsOwnAddress := by
  intro nnn s
  constructor
  · intro hfree
    have hother : ∀ j : Fin 16, j.val ≠ s.sp.val → (s.stk.set s.sp.val s.pc)[j] = s.stk[j] :=
      fun j hj => Vector.getElem_set_ne _ _ hj.symm
    exact ⟨_, exec_call_of_free nnn hfree, rfl, rfl, Vector.getElem_set_self _, hother, jumpTarget_toNat nnn⟩
  · intro hfull
    exact faults_of_exec_eq (exec_call_of_full nnn hfull)

/-- Settles O13: the return pops the entry the call pushed, which is the call's own address. -/
theorem returnUndoesCall : Obligations.ReturnUndoesCall := by
  intro nnn s hfree
  refine ⟨_, exec_call_of_free nnn hfree, fun u hstk hsp => ?_⟩
  have hdepth : u.sp.val = s.sp.val + 1 := congrArg Fin.val hsp
  have hpos : 0 < u.sp.val := by omega
  have htop : u.stk[u.sp.val - 1] = s.pc := by simp [hstk, hdepth]
  refine ⟨_, exec_ret_of_pos hpos, Fin.ext ?_, ?_⟩
  · show u.sp.val - 1 = s.sp.val
    omega
  · rw [htop]
    exact BitVec.toNat_add s.pc 2

/-- Settles O10: `0NNN` answers with the next instruction in line. -/
theorem sysOnlyAdvancesPc : Obligations.SysOnlyAdvancesPc := by
  intro nnn s
  have hsys : exec (.sys nnn) s = .next s.sequential := rfl
  exact ⟨_, hsys, s.goto_onlyPc _, s.sequential_pc_toNat⟩

/-- Settles O35: with an index up to 15 both answer with a skip on that key's flag, and above 15 with a fault. -/
theorem keySkipsTestTheKeyOfTheRegister : Obligations.KeySkipsTestTheKeyOfTheRegister := by
  intro x s
  constructor
  · intro hkey
    have hlt : (s.reg x).toNat < 16 := Nat.lt_succ_of_le hkey
    exact ⟨skips_of_exec_eq (exec_skp_of_key hlt), skips_of_exec_eq (exec_sknp_of_key hlt)⟩
  · intro hnokey
    exact ⟨faults_of_exec_eq (exec_skp_of_no_key hnokey), faults_of_exec_eq (exec_sknp_of_no_key hnokey)⟩

/-- Settles O33: the last of at least one sprite byte decides, and it is past memory. -/
theorem drawPastMemoryFaults : Obligations.DrawPastMemoryFaults := by
  intro x y n s hpos hpast
  exact faults_of_exec_eq (exec_drw_of_pastMemory hpos (Nat.add_sub_assoc hpos _ ▸ hpast))

end Sys2Proof.Machine

/-! SUPPORT. Logic, the reversed subtraction, the shifts, the random byte and the glyph address. -/

namespace Sys2Proof.Machine

open Sys2Proof.Safety

/-! ## The shifts of bytes -/

theorem byte_shiftRight_one_toNat (a : Byte) : (a >>> 1).toNat = a.toNat / 2 := by
  rw [BitVec.toNat_ushiftRight, Nat.shiftRight_eq_div_pow, pow_one]

theorem byte_shiftLeft_one_toNat (a : Byte) : (a <<< 1).toNat = a.toNat * 2 % 256 := by
  rw [BitVec.toNat_shiftLeft, Nat.shiftLeft_eq, pow_one]

/-! ## The statements -/

/-- Settles O19: each answers with the one register written, bit by bit. -/
theorem logicWorksBitByBitWithoutFlag : Obligations.LogicWorksBitByBitWithoutFlag := by
  intro x y s
  have hor : exec (.orReg x y) s = .next (s.setReg x (s.v[x] ||| s.v[y])).sequential := rfl
  have hand : exec (.andReg x y) s = .next (s.setReg x (s.v[x] &&& s.v[y])).sequential := rfl
  have hxor : exec (.xorReg x y) s = .next (s.setReg x (s.v[x] ^^^ s.v[y])).sequential := rfl
  obtain ⟨t, ht, htOnly, htPc, htKept, htV⟩ := setsOneReg_of_exec_eq hor
  obtain ⟨u, hu, huOnly, huPc, huKept, huV⟩ := setsOneReg_of_exec_eq hand
  obtain ⟨w, hw, hwOnly, hwPc, hwKept, hwV⟩ := setsOneReg_of_exec_eq hxor
  exact ⟨⟨t, ht, htOnly, htPc, htKept, fun _ _ => htV ▸ BitVec.getLsbD_or⟩,
    ⟨u, hu, huOnly, huPc, huKept, fun _ _ => huV ▸ BitVec.getLsbD_and⟩,
    ⟨w, hw, hwOnly, hwPc, hwKept, fun _ _ => hwV ▸ BitVec.getLsbD_xor⟩⟩

/-- Settles O22: the result is the difference of the two registers as they were, `V[Y]` the minuend, and the flag
says that the subtraction did not borrow. -/
theorem reversedSubtractSetsNoBorrow : Obligations.ReversedSubtractSetsNoBorrow := by
  intro x y s
  have hsubn : exec (.subn x y) s =
      .next (s.resultThenFlag x (s.v[y] - s.v[x]) (noBorrowFlag s.v[y] s.v[x])) := rfl
  exact setsResultAndFlag_of_exec_eq hsubn (byte_sub_toNat s.v[y] s.v[x]) (noBorrowFlag_toNat s.v[y] s.v[x])

/-- Settles O23: the result is the register shifted by one, and the flag the bit that leaves it. -/
theorem shiftsMoveOneBitIntoTheFlag : Obligations.ShiftsMoveOneBitIntoTheFlag := by
  intro x y s
  have hshr : exec (.shr x y) s = .next (s.resultThenFlag x (s.v[x] >>> 1) (lowBitFlag s.v[x])) := rfl
  have hshl : exec (.shl x y) s = .next (s.resultThenFlag x (s.v[x] <<< 1) (highBitFlag s.v[x])) := rfl
  exact ⟨setsResultAndFlag_of_exec_eq hshr (byte_shiftRight_one_toNat _) (lowBitFlag_toNat _),
    setsResultAndFlag_of_exec_eq hshl (byte_shiftLeft_one_toNat _) (highBitFlag_toNat _)⟩

/-- Settles O24: the one register written takes the next free byte, masked, and one byte is drawn. -/
theorem randomByteIsMaskedAndUsedOnce : Obligations.RandomByteIsMaskedAndUsedOnce := by
  intro x nn s
  have hrnd : exec (.rnd x nn) s =
      .next (s.rand.2.setReg x (Config.randByte s.draws &&& nn)).sequential := rfl
  have hv : (s.rand.2.setReg x (Config.randByte s.draws &&& nn)).v[x] = Config.randByte s.draws &&& nn :=
    s.rand.2.v_setReg_same x _
  refine ⟨_, hrnd, rfl, s.sequential_pc_toNat, s.rand.2.setReg_regsKeptBut x _, hv, fun k _ hbit => ?_⟩
  have hmask : (Config.randByte s.draws &&& nn).getLsbD k = false := by
    rw [BitVec.getLsbD_and, hbit, Bool.and_false]
  exact (congrArg (·.getLsbD k) hv).trans hmask

/-- Settles O26: the largest glyph address is 0x050 + 5 * 255, below 65536, so the number is exact. -/
theorem glyphAddressIsFiveTimesTheRegister : Obligations.GlyphAddressIsFiveTimesTheRegister := by
  intro x s
  have hglyph : exec (.ldF x) s = .next (s.setI (s.glyphAddr x)).sequential := rfl
  have hlt : 0x050 + 5 * s.v[x].toNat < 2 ^ 16 := by have := s.v[x].isLt; omega
  exact setsIndex_of_exec_eq hglyph (BitVec.toNat_ofNat .. |>.trans (Nat.mod_eq_of_lt hlt))

end Sys2Proof.Machine

/-! SUPPORT. What the instructions leave unchanged: a case split over the instructions for everything but the
general registers, one for the registers, and one for the faults. -/

namespace Sys2Proof.Machine

open Sys2Proof.Safety

/-! ## Everything but the general registers and `PC` -/

/-- What an instruction from `s` to `t` keeps, piece by piece: each piece has its own writers. -/
structure Frame (i : Instr) (s t : State) : Prop where
  stk : (∀ nnn, i ≠ .call nnn) → t.stk = s.stk
  sp : (∀ nnn, i ≠ .call nnn) → i ≠ .ret → t.sp = s.sp
  mem : (∀ x, i ≠ .ldB x) → (∀ x, i ≠ .stRegs x) → t.mem = s.mem
  fb : i ≠ .cls → (∀ x y n, i ≠ .drw x y n) → t.fb = s.fb
  index : (∀ n, i ≠ .ldI n) → (∀ x, i ≠ .addI x) → (∀ x, i ≠ .ldF x) → t.i = s.i
  dt : (∀ x, i ≠ .ldDtVx x) → t.dt = s.dt
  st : (∀ x, i ≠ .ldStVx x) → t.st = s.st
  keys : t.keys = s.keys
  draws : (∀ x nn, i ≠ .rnd x nn) → t.draws = s.draws

theorem exec_frame {i : Instr} {s t : State} (h : exec i s = .next t) : Frame i s t := by
  cases i with
  | ret => obtain ⟨-, rfl⟩ | ⟨-, rfl⟩ := exec_ret_cases h <;> constructor <;> simp
  | call nnn => obtain ⟨-, rfl⟩ | ⟨-, rfl⟩ := exec_call_cases h <;> constructor <;> simp
  | drw x y n => obtain ⟨-, -, rfl⟩ | ⟨-, rfl⟩ := exec_drw_cases h <;> constructor <;> simp
  | skp x => obtain ⟨-, rfl⟩ | ⟨-, rfl⟩ := exec_skp_cases h <;> constructor <;> simp
  | sknp x => obtain ⟨-, rfl⟩ | ⟨-, rfl⟩ := exec_sknp_cases h <;> constructor <;> simp
  | ldVxK x => obtain ⟨-, rfl⟩ | ⟨k, -, rfl⟩ := exec_ldVxK_cases h <;> constructor <;> simp
  | ldB x => obtain ⟨-, rfl⟩ | ⟨-, rfl⟩ := exec_ldB_cases h <;> constructor <;> simp
  | stRegs x => obtain ⟨-, rfl⟩ | ⟨-, rfl⟩ := exec_stRegs_cases h <;> constructor <;> simp
  | ldRegs x => obtain ⟨-, rfl⟩ | ⟨-, rfl⟩ := exec_ldRegs_cases h <;> constructor <;> simp
  | _ => cases h; constructor <;> simp

/-- Settles O40: the stack's part of the frame. -/
theorem onlyCallAndReturnTouchTheStack : Obligations.OnlyCallAndReturnTouchTheStack := fun _ _ _ h =>
  ⟨(exec_frame h).stk, (exec_frame h).sp⟩

/-- Settles O41: the part of the frame that memory and the display are. -/
theorem memoryAndDisplayHaveTwoWritersEach : Obligations.MemoryAndDisplayHaveTwoWritersEach := fun _ _ _ h =>
  ⟨(exec_frame h).mem, (exec_frame h).fb⟩

/-- Settles O42: the rest of the frame. -/
theorem specialRegistersHaveDedicatedWriters : Obligations.SpecialRegistersHaveDedicatedWriters := fun _ _ _ h =>
  ⟨(exec_frame h).index, (exec_frame h).dt, (exec_frame h).st, (exec_frame h).keys, (exec_frame h).draws⟩

/-! ## The general registers -/

/-- The registers an instruction can write: those it names, and the flag where it writes one (rules R21, R22). -/
def writtenRegs (i : Instr) : List Reg := namedDestinations i ++ if writesFlag i then [flagReg] else []

theorem mem_writtenRegs_iff {i : Instr} {r : Reg} :
    r ∈ writtenRegs i ↔ r ∈ namedDestinations i ∨ (writesFlag i = true ∧ r = flagReg) := by
  cases hflag : writesFlag i <;> simp [writtenRegs, hflag]

/-- The registers `FX65` leaves (rule R145). -/
theorem getElem_regsLoaded (s : State) (x j : Reg) :
    (s.regsLoaded x)[j] = if j ≤ x then s.mem.read (s.indexAddr j.val) else s.v[j] := by
  simp [State.regsLoaded]

theorem exec_regsKeptBut_writtenRegs {i : Instr} {s t : State} (h : exec i s = .next t) :
    RegsKeptBut (writtenRegs i) s t := by
  cases i with
  | ldImm x _ | addImm x _ | ldReg x _ | orReg x _ | andReg x _ | xorReg x _ | rnd x _ | ldVxDt x =>
    cases h; exact s.setReg_regsKeptBut x _
  | addReg x _ | sub x _ | shr x _ | subn x _ | shl x _ =>
    cases h; exact s.resultThenFlag_regsKeptBut x _ _
  | ldVxK x =>
    obtain ⟨-, rfl⟩ | ⟨k, -, rfl⟩ := exec_ldVxK_cases h
    · exact fun _ _ => rfl
    · exact s.setReg_regsKeptBut x _
  | drw x y n =>
    obtain ⟨-, -, rfl⟩ | ⟨-, rfl⟩ := exec_drw_cases h
    · exact fun _ _ => rfl
    · exact s.setReg_regsKeptBut flagReg _
  | ldRegs x =>
    obtain ⟨-, rfl⟩ | ⟨-, rfl⟩ := exec_ldRegs_cases h
    · exact fun _ _ => rfl
    · intro r hr
      have habove : ¬ r ≤ x := by simpa [mem_writtenRegs_iff, namedDestinations, writesFlag] using hr
      exact (getElem_regsLoaded s x r).trans (if_neg habove)
  | ret => obtain ⟨-, rfl⟩ | ⟨-, rfl⟩ := exec_ret_cases h <;> exact fun _ _ => rfl
  | call nnn => obtain ⟨-, rfl⟩ | ⟨-, rfl⟩ := exec_call_cases h <;> exact fun _ _ => rfl
  | skp x => obtain ⟨-, rfl⟩ | ⟨-, rfl⟩ := exec_skp_cases h <;> exact fun _ _ => rfl
  | sknp x => obtain ⟨-, rfl⟩ | ⟨-, rfl⟩ := exec_sknp_cases h <;> exact fun _ _ => rfl
  | ldB x => obtain ⟨-, rfl⟩ | ⟨-, rfl⟩ := exec_ldB_cases h <;> exact fun _ _ => rfl
  | stRegs x => obtain ⟨-, rfl⟩ | ⟨-, rfl⟩ := exec_stRegs_cases h <;> exact fun _ _ => rfl
  | _ => cases h; exact fun _ _ => rfl

theorem flagByte_zero_or_one (b : Bool) : flagByte b = 0 ∨ flagByte b = 1 := by cases b <;> simp [flagByte]

/-- An instruction with a flag leaves a flag byte, whatever `X` is (rules R22, R131). -/
theorem exec_leaves_flagByte {i : Instr} {s t : State} (h : exec i s = .next t) (hflag : writesFlag i = true)
    (hrun : Running t) : ∃ b, t.v[flagReg] = flagByte b := by
  cases i with
  | addReg x _ | sub x _ | shr x _ | subn x _ | shl x _ =>
    cases h; exact ⟨_, s.v_resultThenFlag_flagReg x _ _⟩
  | drw x y n =>
    obtain ⟨-, -, rfl⟩ | ⟨-, rfl⟩ := exec_drw_cases h
    · cases hrun
    · exact ⟨_, State.v_setReg_same _ flagReg _⟩
  | _ => cases hflag

/-- Settles O39: the written registers are the named ones and the flag, and the flag is 0 or 1. -/
theorem registersAreWrittenOnlyAsNamed : Obligations.RegistersAreWrittenOnlyAsNamed := by
  intro i s t h
  constructor
  · intro r hnamed hflag
    have hr : r ∉ writtenRegs i := fun hmem => (mem_writtenRegs_iff.mp hmem).elim hnamed hflag
    exact exec_regsKeptBut_writtenRegs h r hr
  · intro hflag hrun
    obtain ⟨b, hb⟩ := exec_leaves_flagByte h hflag hrun
    exact hb ▸ flagByte_zero_or_one b

/-! ## Faults -/

section Faults
variable {s t : State} {c cause : Cause} {x : Reg}

theorem raisesFault_ret : RaisesFault .ret s c ↔ c = .stackUnderflow ∧ s.sp.val = 0 := by
  simp [RaisesFault]

theorem raisesFault_call {nnn : BitVec 12} :
    RaisesFault (.call nnn) s c ↔ c = .stackOverflow ∧ s.sp.val = 16 := by
  simp [RaisesFault]

theorem raisesFault_skp : RaisesFault (.skp x) s c ↔ c = .keyIndexOutOfRange ∧ 15 < (s.reg x).toNat := by
  simp [RaisesFault]

theorem raisesFault_sknp : RaisesFault (.sknp x) s c ↔ c = .keyIndexOutOfRange ∧ 15 < (s.reg x).toNat := by
  simp [RaisesFault]

theorem raisesFault_drw {x y : Reg} {n : Fin 16} : RaisesFault (.drw x y n) s c ↔
    c = .memOutOfBounds ∧ (0 < n.val ∧ 4096 ≤ s.i.toNat + n.val - 1) := by
  simp [RaisesFault]

theorem raisesFault_ldB : RaisesFault (.ldB x) s c ↔ c = .memOutOfBounds ∧ 4096 ≤ s.i.toNat + 2 := by
  simp [RaisesFault]

theorem raisesFault_stRegs : RaisesFault (.stRegs x) s c ↔ c = .memOutOfBounds ∧ 4096 ≤ s.i.toNat + x.val := by
  simp [RaisesFault]

theorem raisesFault_ldRegs : RaisesFault (.ldRegs x) s c ↔ c = .memOutOfBounds ∧ 4096 ≤ s.i.toNat + x.val := by
  simp [RaisesFault]

theorem raise_fault_iff {due : Prop} (hdue : due) : (s.raise cause).fault = some c ↔ c = cause ∧ due := by
  simp [hdue, eq_comm]

theorem running_fault_iff {due : Prop} (ht : Running t) (hdue : ¬ due) : t.fault = some c ↔ c = cause ∧ due := by
  have hnone : t.fault = none := ht
  simp [hnone, hdue]

end Faults

/-- Settles O44: for each instruction that can fault, the fault's condition and its contrary; no other
instruction faults. -/
theorem faultsAreRaisedExactlyWhenDue : Obligations.FaultsAreRaisedExactlyWhenDue := by
  intro i s t c hrun h
  cases i with
  | ret =>
    rw [raisesFault_ret]
    obtain ⟨hempty, rfl⟩ | ⟨hpos, rfl⟩ := exec_ret_cases h
    · exact raise_fault_iff hempty
    · exact running_fault_iff hrun (Nat.ne_of_gt hpos)
  | call nnn =>
    rw [raisesFault_call]
    obtain ⟨hfull, rfl⟩ | ⟨hfree, rfl⟩ := exec_call_cases h
    · exact raise_fault_iff hfull
    · exact running_fault_iff hrun (Nat.ne_of_lt hfree)
  | skp x =>
    rw [raisesFault_skp]
    obtain ⟨hnokey, rfl⟩ | ⟨hkey, rfl⟩ := exec_skp_cases h
    · exact raise_fault_iff hnokey
    · exact running_fault_iff hrun (by omega)
  | sknp x =>
    rw [raisesFault_sknp]
    obtain ⟨hnokey, rfl⟩ | ⟨hkey, rfl⟩ := exec_sknp_cases h
    · exact raise_fault_iff hnokey
    · exact running_fault_iff hrun (by omega)
  | drw x y n =>
    rw [raisesFault_drw]
    obtain ⟨hpos, hpast, rfl⟩ | ⟨hin, rfl⟩ := exec_drw_cases h
    · exact raise_fault_iff ⟨hpos, hpast⟩
    · exact running_fault_iff hrun (by omega)
  | ldB x =>
    rw [raisesFault_ldB]
    obtain ⟨hpast, rfl⟩ | ⟨hin, rfl⟩ := exec_ldB_cases h
    · exact raise_fault_iff hpast
    · exact running_fault_iff hrun (by omega)
  | stRegs x =>
    rw [raisesFault_stRegs]
    obtain ⟨hpast, rfl⟩ | ⟨hin, rfl⟩ := exec_stRegs_cases h
    · exact raise_fault_iff hpast
    · exact running_fault_iff hrun (by omega)
  | ldRegs x =>
    rw [raisesFault_ldRegs]
    obtain ⟨hpast, rfl⟩ | ⟨hin, rfl⟩ := exec_ldRegs_cases h
    · exact raise_fault_iff hpast
    · exact running_fault_iff hrun (by omega)
  | ldVxK x =>
    have hs : s.fault = none := hrun
    obtain ⟨-, rfl⟩ | ⟨k, -, rfl⟩ := exec_ldVxK_cases h <;> simp [RaisesFault, hs]
  | _ =>
    have hs : s.fault = none := hrun
    cases h
    simp [RaisesFault, hs]

end Sys2Proof.Machine

/-! SUPPORT. `ST` is written and never read: the instructions commute with a write of `ST`. -/

namespace Sys2Proof.Machine

/-- No instruction but `FX18` reads or writes `ST` (rule R28). -/
theorem exec_setSt {i : Instr} {s t : State} (hst : ∀ x, i ≠ .ldStVx x) (b : Byte) (h : exec i s = .next t) :
    exec i (s.setSt b) = .next (t.setSt b) := by
  cases i with
  | ldStVx x => exact absurd rfl (hst x)
  | ret =>
    obtain ⟨hempty, rfl⟩ | ⟨hpos, rfl⟩ := exec_ret_cases h
    · exact exec_ret_of_empty (s := s.setSt b) hempty
    · exact exec_ret_of_pos (s := s.setSt b) hpos
  | call nnn =>
    obtain ⟨hfull, rfl⟩ | ⟨hfree, rfl⟩ := exec_call_cases h
    · exact exec_call_of_full (s := s.setSt b) nnn hfull
    · exact exec_call_of_free (s := s.setSt b) nnn hfree
  | skp x =>
    obtain ⟨hnokey, rfl⟩ | ⟨hkey, rfl⟩ := exec_skp_cases h
    · exact exec_skp_of_no_key (s := s.setSt b) hnokey
    · exact exec_skp_of_key (s := s.setSt b) hkey
  | sknp x =>
    obtain ⟨hnokey, rfl⟩ | ⟨hkey, rfl⟩ := exec_sknp_cases h
    · exact exec_sknp_of_no_key (s := s.setSt b) hnokey
    · exact exec_sknp_of_key (s := s.setSt b) hkey
  | ldVxK x =>
    obtain ⟨hnone, rfl⟩ | ⟨k, hk, rfl⟩ := exec_ldVxK_cases h
    · exact exec_ldVxK_of_no_key (s := t.setSt b) x ((leastKey_none t.keys).mpr hnone)
    · exact exec_ldVxK_of_leastKey (s := s.setSt b) x hk
  | drw x y n =>
    obtain ⟨hpos, hpast, rfl⟩ | ⟨hin, rfl⟩ := exec_drw_cases h
    · exact exec_drw_of_pastMemory (s := s.setSt b) hpos hpast
    · exact exec_drw_of_inMemory (s := s.setSt b) hin
  | ldB x =>
    obtain ⟨hpast, rfl⟩ | ⟨hin, rfl⟩ := exec_ldB_cases h
    · exact exec_ldB_of_pastMemory (s := s.setSt b) hpast
    · exact exec_ldB_of_inMemory (s := s.setSt b) hin
  | stRegs x =>
    obtain ⟨hpast, rfl⟩ | ⟨hin, rfl⟩ := exec_stRegs_cases h
    · exact exec_stRegs_of_pastMemory (s := s.setSt b) hpast
    · exact exec_stRegs_of_inMemory (s := s.setSt b) hin
  | ldRegs x =>
    obtain ⟨hpast, rfl⟩ | ⟨hin, rfl⟩ := exec_ldRegs_cases h
    · exact exec_ldRegs_of_pastMemory (s := s.setSt b) hpast
    · exact exec_ldRegs_of_inMemory (s := s.setSt b) hin
  | _ => cases h; rfl

/-- `FX18` writes over what `ST` was. -/
theorem exec_ldStVx_setSt (x : Reg) (s : State) (b : Byte) :
    exec (.ldStVx x) (s.setSt b) = exec (.ldStVx x) s := rfl

/-- Settles O43: `FX18` writes over the difference, and every other instruction carries it on. -/
theorem soundTimerIsNeverRead : Obligations.SoundTimerIsNeverRead := by
  intro i s b
  obtain ⟨t, ht⟩ := exec_answers_next i s
  by_cases hst : ∃ x, i = .ldStVx x
  · obtain ⟨x, rfl⟩ := hst
    exact ⟨t, t, ht, (exec_ldStVx_setSt x s b).trans ht, rfl, fun _ => rfl, fun hne => absurd rfl (hne x)⟩
  · have hne : ∀ x, i ≠ .ldStVx x := fun x hx => hst ⟨x, hx⟩
    exact ⟨t, t.setSt b, ht, exec_setSt hne b ht, rfl, fun hx => absurd hx hst, fun _ => rfl⟩

end Sys2Proof.Machine

/-! SUPPORT. One step of the interpreter, and the steps of an ADVANCE. -/

namespace Sys2Proof.Machine

open Sys2Proof.Safety

/-! ## The interpreter, forwards -/

theorem wordOfBytes_toNat (hi lo : Byte) : (wordOfBytes hi lo).toNat = 256 * hi.toNat + lo.toNat := by
  have hlo : lo.toNat < 2 ^ 8 := lo.isLt
  rw [wordOfBytes, BitVec.toNat_append, ← Nat.shiftLeft_add_eq_or_of_lt hlo, Nat.shiftLeft_eq, Nat.mul_comm]

section Interpret
variable {s t : State}

theorem interpret_of_pastMemory (h : 4095 ≤ s.pc.toNat) : interpret s = .next (s.raise .memOutOfBounds) := by
  rw [interpret, State.fetchWord_none s h]

theorem interpret_of_instr {i : Instr} (hpc : s.pc.toNat + 1 < 4096)
    (hi : decodeWord (wordOfBytes (s.mem.read s.pc.toNat) (s.mem.read (s.pc.toNat + 1))) = .ok i) :
    interpret s = exec i s := by
  simp only [interpret, State.fetchWord_some s hpc, hi]

theorem interpret_of_invalid {r : Reject} (hpc : s.pc.toNat + 1 < 4096)
    (hr : decodeWord (wordOfBytes (s.mem.read s.pc.toNat) (s.mem.read (s.pc.toNat + 1))) = .error r) :
    interpret s = .next (s.raise .invalidOpcode) := by
  simp only [interpret, State.fetchWord_some s hpc, hr]

theorem interpret_answers_next (s : State) : ∃ t, interpret s = .next t := by
  obtain ⟨-, h⟩ | ⟨-, ⟨r, -, h⟩ | ⟨i, -, h⟩⟩ := interpret_cases (s := s) rfl
  · exact ⟨_, h⟩
  · exact ⟨_, h⟩
  · obtain ⟨t, ht⟩ := exec_answers_next i s
    exact ⟨t, h ▸ ht⟩

/-- What a step of the interpreter can come to: a fault and nothing else, or one instruction. -/
theorem interpret_raises_or_executes (h : interpret s = .next t) :
    (∃ c, t = s.raise c) ∨ ∃ i, s.pc.toNat ≤ 4094 ∧ exec i s = .next t := by
  obtain ⟨-, ho⟩ | ⟨hpc, ⟨r, -, ho⟩ | ⟨i, -, ho⟩⟩ := interpret_cases h
  · cases ho; exact .inl ⟨_, rfl⟩
  · cases ho; exact .inl ⟨_, rfl⟩
  · exact .inr ⟨i, hpc, ho⟩

/-- `exec_raises_or_keeps`, for a step of the interpreter. -/
theorem interpret_raises_or_keeps (h : interpret s = .next t) :
    (∃ c, t = s.raise c) ∨
      (t.fault = s.fault ∧ t.keys = s.keys ∧ t.adv = s.adv ∧ t.script = s.script ∧ t.result = s.result) := by
  obtain hraise | ⟨i, -, hi⟩ := interpret_raises_or_executes h
  · exact .inl hraise
  · exact exec_raises_or_keeps hi

end Interpret

/-- Settles O5: up to 4094 both addresses exist, and from 4095 on the second does not. -/
theorem fetchReadsTwoBytesBelow4096 : Obligations.FetchReadsTwoBytesBelow4096 := by
  intro s
  constructor
  · intro hpc
    exact ⟨_, s.fetchWord_some (by omega), wordOfBytes_toNat _ _⟩
  · intro hpc
    exact ⟨s.fetchWord_none hpc, _, interpret_of_pastMemory hpc, rfl, rfl⟩

/-- Settles O6: with a step left the step is one of the interpreter, which runs the decoded instruction. -/
theorem stepRunsTheDecodedInstruction : Obligations.StepRunsTheDecodedInstruction := by
  intro s k i ha hrun hpc hi
  exact (step_advancing ha hrun).trans (interpret_of_instr (s := { s with adv := some k }) hpc hi)

/-- Settles O7: with a step left the step is one of the interpreter, which faults on the word. -/
theorem stepFaultsOnAnInvalidWord : Obligations.StepFaultsOnAnInvalidWord := by
  intro s k r ha hrun hpc hr
  exact ⟨_, (step_advancing ha hrun).trans (interpret_of_invalid (s := { s with adv := some k }) hpc hr), rfl⟩

/-! ## A word placed at the fetch address -/

theorem withFetchWord_toNat (s : State) (w : Word16) :
    s.withFetchWord 16 w.toNat = s.readyToStep.placeWord w := by
  rw [State.withFetchWord, Nat.mod_eq_of_lt w.isLt, BitVec.ofNat_toNat, BitVec.setWidth_eq]

theorem readyToStep_pc_lt (s : State) : s.readyToStep.pc.toNat + 1 < 4096 := by
  show (if s.pc.toNat + 1 < 4096 then s.pc else 0x200#16).toNat + 1 < 4096
  split
  · assumption
  · decide

theorem readyToStep_adv (s : State) : ∃ k, s.readyToStep.adv = some (k + 1) :=
  ⟨max 1 (s.adv.getD 1) - 1, congrArg some (by omega)⟩

/-- The two bytes at `PC` are those of the word placed there (rule R50). -/
theorem wordOfBytes_placeWord (s : State) (w : Word16) :
    wordOfBytes ((s.placeWord w).mem.read s.pc.toNat) ((s.placeWord w).mem.read (s.pc.toNat + 1)) = w := by
  have hhi : (s.placeWord w).mem.read s.pc.toNat = hiByte w :=
    Memory.read_writeBytes_inside [hiByte w, loByte w] s.mem s.pc.toNat 0 (by simp)
  have hlo : (s.placeWord w).mem.read (s.pc.toNat + 1) = loByte w :=
    Memory.read_writeBytes_inside [hiByte w, loByte w] s.mem s.pc.toNat 1 (by simp)
  rw [hhi, hlo, wordOfBytes_hi_lo]

/-- Settles O8: the state made ready has a step left and fetches the placed word. -/
theorem placedWordRunsNext : Obligations.PlacedWordRunsNext := by
  intro s w i hi
  rw [withFetchWord_toNat]
  obtain ⟨k, hk⟩ := readyToStep_adv s
  refine ⟨k, hk, stepRunsTheDecodedInstruction (s.readyToStep.placeWord w) k i hk rfl (readyToStep_pc_lt s) ?_⟩
  exact (congrArg decodeWord (wordOfBytes_placeWord s.readyToStep w)).trans hi

/-! ## A step of an ADVANCE in progress -/

theorem step_tick {s : State} (ha : s.adv = some 0) (hrun : Running s) :
    step s = .next (s.tick.endAdvance .ok) := by
  have hf : s.fault = none := hrun
  simp only [step, ha, advanceStep, hf]

/-- What a step of an ADVANCE can come to: its end by a latched fault, its end by the tick, or a step of the
interpreter. -/
theorem step_of_advance_cases {s t : State} {n : Nat} (ha : s.adv = some n) (h : step s = .next t) :
    (∃ c, s.fault = some c ∧ t = s.endAdvance (.error c)) ∨ (Running s ∧ t = s.tick.endAdvance .ok) ∨
      (Running s ∧ interpret s.spendStep = .next t) := by
  obtain ⟨-, c, -, hf, ho⟩ | ⟨-, hf, ho⟩ | ⟨-, -, hf, ho⟩ | ⟨-, -, hnone, -⟩ | ⟨-, hnone, -⟩ | ⟨hnone, -⟩ :=
    step_cases h
  · cases ho; exact .inl ⟨c, hf, rfl⟩
  · cases ho; exact .inr (.inl ⟨hf, rfl⟩)
  · exact .inr (.inr ⟨hf, ho⟩)
  all_goals simp [ha] at hnone

/-- Settles O47: the tick lowers the two timers and ends the ADVANCE. -/
theorem tickLowersNonZeroTimersByOne : Obligations.TickLowersNonZeroTimersByOne := fun s hrun ha =>
  ⟨_, step_tick ha hrun, rfl, tickTimer_toNat s.dt, tickTimer_toNat s.st⟩

/-- Settles O45: a running machine can come to a fault by a step of the interpreter alone, which then changes
nothing else. -/
theorem faultsArePreciseAndEndTheAdvance : Obligations.FaultsArePreciseAndEndTheAdvance := by
  intro s t n c hrun ha h hfault
  have hs : s.fault = none := hrun
  obtain ⟨c', hf, -⟩ | ⟨-, rfl⟩ | ⟨-, hi⟩ := step_of_advance_cases ha h
  · simp [hs] at hf
  · simp [hs] at hfault
  · obtain ⟨c', rfl⟩ | ⟨hkept, -⟩ := interpret_raises_or_keeps hi
    · cases hfault; rfl
    · simp [hkept, hs] at hfault

/-- Settles O46: neither an end of the ADVANCE nor a step of the interpreter writes the keys. -/
theorem keysAreConstantDuringAnAdvance : Obligations.KeysAreConstantDuringAnAdvance := by
  intro s t n ha h
  obtain ⟨c, -, rfl⟩ | ⟨-, rfl⟩ | ⟨-, hi⟩ := step_of_advance_cases ha h
  · rfl
  · rfl
  · obtain ⟨c, rfl⟩ | ⟨-, hkeys, -⟩ := interpret_raises_or_keeps hi
    · rfl
    · exact hkeys

/-! ## A whole ADVANCE -/

/-- With a step left, a running machine goes on to a state that is faulted or has one step less, with the host's
fields and the keys as they were. -/
theorem step_of_advance_continues {s : State} {m : Nat} (ha : s.adv = some (m + 1)) (hrun : Running s) :
    ∃ t, step s = .next t ∧ (Running t → t.adv = some m ∧ t.script = s.script ∧ t.keys = s.keys) := by
  obtain ⟨t, ht⟩ := interpret_answers_next { s with adv := some m }
  refine ⟨t, (step_advancing ha hrun).trans ht, fun hrunning => ?_⟩
  obtain ⟨c, rfl⟩ | ⟨-, hkeys, hadv, hscript, -⟩ := interpret_raises_or_keeps ht
  · cases hrunning
  · exact ⟨hadv, hscript, hkeys⟩

/-- After `k` steps of an ADVANCE of `n` steps that does not fault, `n - k` are left. -/
theorem run_of_advance {n : Nat} {s : State} (ha : s.adv = some n)
    (hrun : ∀ k ≤ n, ∀ u : State, Sys2Proof.core.run k s = .next u → Running u) :
    ∀ k ≤ n, ∃ u : State, Sys2Proof.core.run k s = .next u ∧ u.adv = some (n - k) ∧ u.script = s.script ∧
      u.keys = s.keys := by
  intro k hk
  induction k with
  | zero => exact ⟨s, run_zero s, ha, rfl, rfl⟩
  | succ k ih =>
    obtain ⟨u, hu, hadv, hscript, hkeys⟩ := ih (by omega)
    have hleft : u.adv = some (n - (k + 1) + 1) := hadv.trans (congrArg some (by omega))
    obtain ⟨t, ht, hcont⟩ := step_of_advance_continues hleft (hrun k (by omega) u hu)
    have hrunt := (run_step_last hu).trans ht
    obtain ⟨hadv', hscript', hkeys'⟩ := hcont (hrun (k + 1) hk t hrunt)
    exact ⟨t, hrunt, hadv', hscript'.trans hscript, hkeys'.trans hkeys⟩

/-- Settles O48: by induction on the steps run so far, and then the tick. -/
theorem advanceRunsItsStepsAndTicksOnce : Obligations.AdvanceRunsItsStepsAndTicksOnce := by
  intro n s ha hrun
  have hsteps := run_of_advance ha hrun
  refine ⟨hsteps, fun k hk u hu => ?_, ?_⟩
  · obtain ⟨u', hu', hadv, -, -⟩ := hsteps k hk.le
    cases hu.symm.trans hu'
    have hleft : u.adv = some (n - k - 1 + 1) := hadv.trans (congrArg some (by omega))
    exact (run_step_last hu).trans (step_advancing hleft (hrun k hk.le u hu))
  · obtain ⟨u, hu, hadv, -, -⟩ := hsteps n le_rfl
    have hlast : u.adv = some 0 := hadv.trans (congrArg some (Nat.sub_self n))
    exact ⟨u, hu, (run_step_last hu).trans (step_tick hlast (hrun n le_rfl u hu))⟩

end Sys2Proof.Machine

/-! SUPPORT. The host's transactions, and the machine between them. -/

namespace Sys2Proof.Machine

open Sys2Proof.Safety

/-! ## The transactions, forwards -/

theorem step_transaction {s : State} {tr : Transaction} {rest : List Transaction} (ha : s.adv = none)
    (hs : s.script = tr :: rest) : step s = .next (({ s with script := rest } : State).perform tr) := by
  simp only [step, ha, hostStep, hs]

theorem doLoad_of_fits {rom : List Byte} (s : State) (h : rom.length ≤ 3584) :
    s.doLoad rom =
      { s.doReset with mem := s.doReset.mem.writeBytes Config.progBase rom, result := some .ok } :=
  if_pos h

theorem doLoad_of_oversized {rom : List Byte} (s : State) (h : 3584 < rom.length) :
    s.doLoad rom = { s with result := some .loadError } :=
  if_neg (Nat.not_le.mpr h)

theorem beginAdvance_of_running {s : State} (n : Nat) (h : Running s) :
    s.beginAdvance n = { s with adv := some n } := by
  have hf : s.fault = none := h
  rw [State.beginAdvance, hf]

theorem beginAdvance_of_faulted {s : State} {c : Cause} (n : Nat) (h : s.fault = some c) :
    s.beginAdvance n = s.endAdvance (.error c) := by
  rw [State.beginAdvance, h]

/-- With no ADVANCE in progress there is none to end. -/
theorem endAdvance_of_idle {s : State} (a : Answer) (ha : s.adv = none) :
    s.endAdvance a = { s with result := some a } := by
  rw [State.endAdvance, ← ha]

/-! ## The reset state -/

theorem reset_registersAtReset : RegistersAtReset State.reset := by
  simp [RegistersAtReset, State.reset, Framebuffer.pixel, Config.progBase]

theorem background_eq_resetByte (a : Nat) : Memory.background a = resetByte a := by
  have hrange : (0x050 ≤ a ∧ a < 0x050 + 80) ↔ (0x050 ≤ a ∧ a ≤ 0x09F) := by omega
  exact if_congr hrange rfl rfl

/-! ## The statements -/

/-- Settles O49: the start of ADVANCE on a running machine, and on a faulted one. -/
theorem advanceBeginsUnlessFaulted : Obligations.AdvanceBeginsUnlessFaulted := by
  intro s n rest ha hs
  constructor
  · intro hrun
    exact (step_transaction ha hs).trans
      (congrArg _ (beginAdvance_of_running (s := { s with script := rest }) n hrun))
  · intro c hc
    exact (step_transaction ha hs).trans (congrArg _
      ((beginAdvance_of_faulted (s := { s with script := rest }) n hc).trans (endAdvance_of_idle _ ha)))

/-- Settles O50: the two ways a machine with nothing to do answers. -/
theorem machineIsIdleWithoutTransactions : Obligations.MachineIsIdleWithoutTransactions := by
  intro s ha hs
  constructor
  · intro hrun
    have hf : s.fault = none := hrun
    simp only [step, ha, hostStep, hs, hf]
  · intro c hf
    simp only [step, ha, hostStep, hs, hf]

/-- Settles O52: `State.reset` holds the reset values, and RESET gives every piece of the machine its piece of
`State.reset`. -/
theorem resetReinitialisesEverything : Obligations.ResetReinitialisesEverything := by
  refine ⟨reset_registersAtReset, background_eq_resetByte, fun s rest ha hs => ?_⟩
  exact ⟨_, step_transaction ha hs, reset_registersAtReset, background_eq_resetByte, rfl, rfl, rfl⟩

/-- Settles O53: a LOAD that fits is RESET and the bytes of the image written into the reset contents. -/
theorem loadResetsAndCopiesTheImage : Obligations.LoadResetsAndCopiesTheImage := by
  intro s rom rest ha hs hfits
  have hload := (step_transaction ha hs).trans (congrArg _ (doLoad_of_fits { s with script := rest } hfits))
  refine ⟨_, hload, reset_registersAtReset, rfl, rfl, rfl, fun k => ?_, fun a hout => ?_⟩
  · exact Memory.read_writeBytes_inside rom [] 0x200 k.val k.isLt
  · exact (Memory.read_writeBytes_outside rom [] 0x200 a hout).trans (background_eq_resetByte a)

/-- Settles O54: a LOAD that does not fit writes the answer alone. -/
theorem oversizedLoadChangesNothing : Obligations.OversizedLoadChangesNothing := fun s _ rest ha hs hlong =>
  (step_transaction ha hs).trans (congrArg _ (doLoad_of_oversized { s with script := rest } hlong))

/-- Settles O55: SET_KEYS writes the key vector alone, whatever else the state holds. -/
theorem setKeysReplacesTheKeyVector : Obligations.SetKeysReplacesTheKeyVector := fun _ _ _ ha hs =>
  step_transaction ha hs

/-- A transaction on a faulted machine keeps all but the keys and the host's fields, or is one of the two that
clear the fault (rules R98, R179). -/
theorem perform_of_faulted {s : State} {c : Cause} (hf : s.fault = some c) (ha : s.adv = none)
    (tr : Transaction) :
    (s.perform tr = { s with keys := (s.perform tr).keys, adv := none, result := (s.perform tr).result }) ∨
      (Running (s.perform tr) ∧ (tr = .reset ∨ ∃ rom, rom.length ≤ 3584 ∧ tr = .load rom)) := by
  cases tr with
  | reset => exact .inr ⟨rfl, .inl rfl⟩
  | load rom =>
    by_cases hfits : rom.length ≤ 3584
    · refine .inr ⟨?_, .inr ⟨rom, hfits, rfl⟩⟩
      rw [State.perform, doLoad_of_fits s hfits]; rfl
    · rw [State.perform, doLoad_of_oversized s (by omega), ← ha]; exact .inl rfl
  | advance n => rw [State.perform, beginAdvance_of_faulted n hf]; exact .inl rfl
  | setKeys k => rw [State.perform, State.doSetKeys, ← ha]; exact .inl rfl

/-- Settles O51: a faulted machine takes no step of an ADVANCE, and of the transactions only RESET and a LOAD that
fits change it. -/
theorem onlyResetAndLoadLeaveTheFault : Obligations.OnlyResetAndLoadLeaveTheFault := by
  intro s t c hf h
  obtain ⟨n, c', -, -, ho⟩ | ⟨-, hnone, -⟩ | ⟨n, -, hnone, -⟩ | ⟨tr, rest, ha, hs, ho⟩ |
    ⟨c', -, -, -, ho⟩ | ⟨-, -, hnone, -⟩ := step_cases h
  · cases ho; exact .inl rfl
  · simp [hf] at hnone
  · simp [hf] at hnone
  · cases ho
    obtain hkept | ⟨hrun, rfl | ⟨rom, hfits, rfl⟩⟩ := perform_of_faulted (s := { s with script := rest }) hf ha tr
    · refine .inl ?_
      rw [hkept]
    · exact .inr ⟨hrun, ha, rest, .inl hs⟩
    · exact .inr ⟨hrun, ha, rest, .inr ⟨rom, hfits, hs⟩⟩
  · cases ho
  · simp [hf] at hnone

end Sys2Proof.Machine

/-! SUPPORT. The invariants of the step. -/

namespace Sys2Proof.Machine

open Sys2Proof.Safety

/-! ## What a step does to the program: memory, `PC` and the stack -/

/-- `t` has the memory, the `PC` and the call stack of `s`. -/
structure ProgramKept (s t : State) : Prop where
  mem : t.mem = s.mem
  pc : t.pc = s.pc
  sp : t.sp = s.sp
  stk : t.stk = s.stk

/-- `t` is about to start the image `rom`, which is all that is in memory beside the reset contents; RESET is the
case of an empty image. -/
structure ImageReady (rom : List Byte) (t : State) : Prop where
  fits : rom.length ≤ 3584
  mem : t.mem = Memory.writeBytes [] Config.progBase rom
  pc : t.pc = BitVec.ofNat 16 Config.progBase
  sp : t.sp = 0

theorem perform_keeps_or_readies (s : State) (tr : Transaction) :
    ProgramKept s (s.perform tr) ∨ ∃ rom, ImageReady rom (s.perform tr) := by
  cases tr with
  | reset => exact .inr ⟨[], Nat.zero_le _, rfl, rfl, rfl⟩
  | load rom =>
    by_cases hfits : rom.length ≤ 3584
    · rw [State.perform, doLoad_of_fits s hfits]; exact .inr ⟨rom, hfits, rfl, rfl, rfl⟩
    · rw [State.perform, doLoad_of_oversized s (by omega)]; exact .inl ⟨rfl, rfl, rfl, rfl⟩
  | advance n =>
    cases hf : s.fault with
    | none => rw [State.perform, beginAdvance_of_running n hf]; exact .inl ⟨rfl, rfl, rfl, rfl⟩
    | some c => rw [State.perform, beginAdvance_of_faulted n hf]; exact .inl ⟨rfl, rfl, rfl, rfl⟩
  | setKeys k => exact .inl ⟨rfl, rfl, rfl, rfl⟩

/-- A step keeps the program's part of the state, or runs one instruction, or readies an image. -/
theorem step_program_cases {s t : State} (h : step s = .next t) :
    ProgramKept s t ∨ (∃ i, s.pc.toNat ≤ 4094 ∧ exec i s.spendStep = .next t) ∨ ∃ rom, ImageReady rom t := by
  obtain ⟨n, c, -, -, ho⟩ | ⟨-, -, ho⟩ | ⟨n, -, -, hi⟩ | ⟨tr, rest, -, -, ho⟩ | ⟨c, -, -, -, ho⟩ | ⟨-, -, -, ho⟩ :=
    step_cases h
  · cases ho; exact .inl ⟨rfl, rfl, rfl, rfl⟩
  · cases ho; exact .inl ⟨rfl, rfl, rfl, rfl⟩
  · obtain ⟨c, rfl⟩ | hexec := interpret_raises_or_executes hi
    · exact .inl ⟨rfl, rfl, rfl, rfl⟩
    · exact .inr (.inl hexec)
  · cases ho
    obtain ⟨hmem, hpc, hsp, hstk⟩ | hready := perform_keeps_or_readies { s with script := rest } tr
    · exact .inl ⟨hmem, hpc, hsp, hstk⟩
    · exact .inr (.inr hready)
  · cases ho
  · cases ho; exact .inl ⟨rfl, rfl, rfl, rfl⟩

/-! ## The canonical form of memory -/

/-- Only the two stores write memory, and they do so below 4096. -/
theorem exec_keeps_memoryCanonical {i : Instr} {s t : State} (hs : MemoryCanonical s)
    (h : exec i s = .next t) : MemoryCanonical t := by
  by_cases hldB : ∃ x, i = .ldB x
  · obtain ⟨x, rfl⟩ := hldB
    obtain ⟨-, rfl⟩ | ⟨hin, rfl⟩ := exec_ldB_cases h
    · exact hs
    · exact s.wf_storeAtI _ hs (by simp [bcdDigits]; omega)
  by_cases hstRegs : ∃ x, i = .stRegs x
  · obtain ⟨x, rfl⟩ := hstRegs
    obtain ⟨-, rfl⟩ | ⟨hin, rfl⟩ := exec_stRegs_cases h
    · exact hs
    · exact s.wf_storeAtI _ hs (by rw [s.length_regsUpTo]; omega)
  have hmem : t.mem = s.mem := (exec_frame h).mem (fun x hx => hldB ⟨x, hx⟩) (fun x hx => hstRegs ⟨x, hx⟩)
  rw [MemoryCanonical, hmem]
  exact hs

/-- Settles O58: a kept memory, an instruction, or an image of at most 3584 bytes at 0x200. -/
theorem stepKeepsMemoryCanonical : Obligations.StepKeepsMemoryCanonical := by
  intro s t hs h
  obtain hkept | ⟨i, -, hi⟩ | ⟨rom, hready⟩ := step_program_cases h
  · rw [MemoryCanonical, hkept.mem]
    exact hs
  · exact exec_keeps_memoryCanonical (s := s.spendStep) hs hi
  · rw [MemoryCanonical, hready.mem]
    exact Memory.wf_writeBytes rom Memory.wf_nil (Nat.add_le_add_left hready.fits 0x200)

/-! ## The bounds of `PC` and of the stack -/

/-- Every live stack entry is the address of a call. -/
def StackBounded (s : State) : Prop := ∀ j : Fin 16, j.val < s.sp.val → s.stk[j].toNat ≤ 4094

theorem goto_add_pc_le (s : State) {a k : Word16} (ha : a.toNat ≤ 4094) (hk : k.toNat ≤ 4) :
    (s.goto (a + k)).pc.toNat ≤ 0x10FE := by
  rw [State.goto_pc, BitVec.toNat_add]
  omega

theorem sequential_pc_le {s : State} (h : s.pc.toNat ≤ 4094) : s.sequential.pc.toNat ≤ 0x10FE :=
  goto_add_pc_le s h (by decide)

theorem skipIf_pc_le {s : State} (c : Bool) (h : s.pc.toNat ≤ 4094) : (s.skipIf c).pc.toNat ≤ 0x10FE := by
  cases c with
  | true => exact goto_add_pc_le s h (by decide)
  | false => exact goto_add_pc_le s h (by decide)

theorem jumpTarget_le (nnn : BitVec 12) : (jumpTarget nnn).toNat ≤ 0x10FE := by
  rw [jumpTarget_toNat]
  have := nnn.isLt
  omega

theorem offsetTarget_le (s : State) (nnn : BitVec 12) : (s.offsetTarget nnn).toNat ≤ 0x10FE := by
  rw [State.offsetTarget_toNat]
  have := nnn.isLt
  have := (s.reg 0).isLt
  omega

/-- An instruction fetched below 4096 leaves `PC` at most 0x10FE, which `BFFF` reaches (rule R24). -/
theorem exec_pc_le {i : Instr} {s t : State} (hpc : s.pc.toNat ≤ 4094) (hstk : StackBounded s)
    (h : exec i s = .next t) : t.pc.toNat ≤ 0x10FE := by
  have hkept : s.pc.toNat ≤ 0x10FE := by omega
  cases i with
  | ret =>
    obtain ⟨-, rfl⟩ | ⟨hpos, rfl⟩ := exec_ret_cases h
    · exact hkept
    · exact goto_add_pc_le s (hstk ⟨s.sp.val - 1, by omega⟩ (by simp; omega)) (by decide)
  | jp nnn => cases h; exact jumpTarget_le nnn
  | call nnn =>
    obtain ⟨-, rfl⟩ | ⟨-, rfl⟩ := exec_call_cases h
    · exact hkept
    · exact jumpTarget_le nnn
  | jpV0 nnn => cases h; exact offsetTarget_le s nnn
  | seImm _ _ | sneImm _ _ | seReg _ _ | sneReg _ _ => cases h; exact skipIf_pc_le _ hpc
  | skp x =>
    obtain ⟨-, rfl⟩ | ⟨-, rfl⟩ := exec_skp_cases h
    · exact hkept
    · exact skipIf_pc_le _ hpc
  | sknp x =>
    obtain ⟨-, rfl⟩ | ⟨-, rfl⟩ := exec_sknp_cases h
    · exact hkept
    · exact skipIf_pc_le _ hpc
  | ldVxK x =>
    obtain ⟨-, rfl⟩ | ⟨k, -, rfl⟩ := exec_ldVxK_cases h
    · exact hkept
    · exact sequential_pc_le hpc
  | drw x y n =>
    obtain ⟨-, -, rfl⟩ | ⟨-, rfl⟩ := exec_drw_cases h
    · exact hkept
    · exact sequential_pc_le hpc
  | ldB x =>
    obtain ⟨-, rfl⟩ | ⟨-, rfl⟩ := exec_ldB_cases h
    · exact hkept
    · exact sequential_pc_le hpc
  | stRegs x =>
    obtain ⟨-, rfl⟩ | ⟨-, rfl⟩ := exec_stRegs_cases h
    · exact hkept
    · exact sequential_pc_le hpc
  | ldRegs x =>
    obtain ⟨-, rfl⟩ | ⟨-, rfl⟩ := exec_ldRegs_cases h
    · exact hkept
    · exact sequential_pc_le hpc
  | _ => cases h; exact sequential_pc_le hpc

/-- A call fetched below 4096 pushes an address up to 4094; a return leaves the entries below the one popped. -/
theorem exec_keeps_stackBounded {i : Instr} {s t : State} (hpc : s.pc.toNat ≤ 4094) (hs : StackBounded s)
    (h : exec i s = .next t) : StackBounded t := by
  by_cases hcall : ∃ nnn, i = .call nnn
  · obtain ⟨nnn, rfl⟩ := hcall
    obtain ⟨-, rfl⟩ | ⟨hfree, rfl⟩ := exec_call_cases h
    · exact hs
    · intro j hj
      have hj : j.val < s.sp.val + 1 := hj
      show (s.stk.set s.sp.val s.pc)[j.val].toNat ≤ 4094
      rw [Vector.getElem_set]
      split
      · exact hpc
      · exact hs j (by omega)
  have hncall : ∀ nnn, i ≠ .call nnn := fun nnn hi => hcall ⟨nnn, hi⟩
  by_cases hret : i = .ret
  · subst hret
    obtain ⟨-, rfl⟩ | ⟨hpos, rfl⟩ := exec_ret_cases h
    · exact hs
    · exact fun j hj => hs j (Nat.lt_of_lt_pred hj)
  have hstk := (exec_frame h).stk hncall
  have hsp := (exec_frame h).sp hncall hret
  intro j hj
  rw [hstk]
  exact hs j (hsp ▸ hj)

/-- Settles O59: a kept program, an instruction fetched below 4096, or a `PC` of 0x200 with an empty stack. -/
theorem stepKeepsControlBounded : Obligations.StepKeepsControlBounded := by
  intro s t hs h
  obtain ⟨hpc, hstk⟩ := hs
  obtain hkept | ⟨i, hfetch, hi⟩ | ⟨rom, hready⟩ := step_program_cases h
  · rw [ControlBounded, hkept.pc, hkept.sp, hkept.stk]
    exact ⟨hpc, hstk⟩
  · exact ⟨exec_pc_le (s := s.spendStep) hfetch hstk hi, exec_keeps_stackBounded (s := s.spendStep) hfetch hstk hi⟩
  · rw [ControlBounded, hready.pc, hready.sp]
    exact ⟨by decide, fun _ hj => absurd hj (Nat.not_lt_zero _)⟩

/-! ## No ADVANCE on a faulted machine -/

theorem faultEndedAdvance_of_idle {s : State} (h : s.adv = none) : FaultEndedAdvance s := fun _ => h

theorem faultEndedAdvance_of_running {s : State} (h : Running s) : FaultEndedAdvance s :=
  fun hfault => absurd h hfault

theorem perform_faultEndedAdvance {s : State} (ha : s.adv = none) (tr : Transaction) :
    FaultEndedAdvance (s.perform tr) := by
  cases hf : s.fault with
  | some c =>
    obtain hkept | ⟨hrun, -⟩ := perform_of_faulted hf ha tr
    · rw [hkept]; exact faultEndedAdvance_of_idle rfl
    · exact faultEndedAdvance_of_running hrun
  | none =>
    cases tr with
    | reset => exact faultEndedAdvance_of_running rfl
    | load rom =>
      by_cases hfits : rom.length ≤ 3584
      · rw [State.perform, doLoad_of_fits s hfits]; exact faultEndedAdvance_of_running rfl
      · rw [State.perform, doLoad_of_oversized s (by omega)]; exact faultEndedAdvance_of_running hf
    | advance n => rw [State.perform, beginAdvance_of_running n hf]; exact faultEndedAdvance_of_running hf
    | setKeys k => exact faultEndedAdvance_of_running hf

/-- Settles O60: a step ends the ADVANCE, or starts from a running machine and raises a fault, which ends it, or
keeps that there is none. -/
theorem stepKeepsFaultEndedAdvance : Obligations.StepKeepsFaultEndedAdvance := by
  intro s t hs h
  obtain ⟨n, c, -, -, ho⟩ | ⟨-, -, ho⟩ | ⟨n, -, hf, hi⟩ | ⟨tr, rest, ha, -, ho⟩ | ⟨c, -, -, -, ho⟩ |
    ⟨-, -, -, ho⟩ := step_cases h
  · cases ho; exact faultEndedAdvance_of_idle rfl
  · cases ho; exact faultEndedAdvance_of_idle rfl
  · obtain ⟨c, rfl⟩ | ⟨hkept, -⟩ := interpret_raises_or_keeps hi
    · exact faultEndedAdvance_of_idle rfl
    · exact faultEndedAdvance_of_running (hkept.trans hf)
  · cases ho; exact perform_faultEndedAdvance (s := { s with script := rest }) ha tr
  · cases ho
  · cases ho; exact hs

/-- Settles O57: the reset memory lists no cell, the reset stack is empty, and no fault is latched. -/
theorem resetMeetsTheInvariants : Obligations.ResetMeetsTheInvariants :=
  ⟨Memory.wf_nil, ⟨by decide, fun _ hj => absurd hj (Nat.not_lt_zero _)⟩, faultEndedAdvance_of_running rfl⟩

end Sys2Proof.Machine

/-! SUPPORT. The loads and stores through `I`, and canonical memories. -/

namespace Sys2Proof.Machine

open Sys2Proof.Safety

/-! ## What a store leaves in memory -/

theorem State.read_storeAtI_inside (s : State) (bs : List Byte) (k : Nat) (h : k < bs.length) :
    (s.storeAtI bs).mem.read (s.indexAddr k) = bs[k] :=
  Memory.read_writeBytes_inside bs s.mem (s.indexAddr 0) k h

theorem State.storeAtI_bytesKeptBut (s : State) (bs : List Byte) :
    BytesKeptBut (s.indexAddr 0) bs.length s (s.storeAtI bs) := fun b hb =>
  Memory.read_writeBytes_outside bs s.mem (s.indexAddr 0) b hb

theorem State.getElem_regsUpTo (s : State) {x : Reg} {k : Nat} (h : k ≤ x.val) :
    (s.regsUpTo x)[k]'(by rw [s.length_regsUpTo]; omega) = s.v[k] := by
  simp [State.regsUpTo]

/-- The byte `FX55` leaves at `I + k`. -/
theorem State.read_storeAtI_regsUpTo (s : State) {x : Reg} {k : Nat} (h : k ≤ x.val) :
    (s.storeAtI (s.regsUpTo x)).mem.read (s.indexAddr k) = s.v[k] :=
  (s.read_storeAtI_inside (s.regsUpTo x) k (by rw [s.length_regsUpTo]; omega)).trans (s.getElem_regsUpTo h)

/-- What every instruction that answers with a store and the next instruction in line does. -/
theorem stores_of_exec_eq {i : Instr} {s : State} {bs : List Byte}
    (h : exec i s = .next (s.storeAtI bs).sequential) :
    ∃ t, exec i s = .next t ∧ t = { s with pc := t.pc, mem := t.mem } ∧ PcSequential s t ∧
      BytesKeptBut (s.indexAddr 0) bs.length s t ∧
      ∀ (k : Nat) (hk : k < bs.length), t.mem.read (s.indexAddr k) = bs[k] :=
  ⟨_, h, rfl, (s.storeAtI bs).sequential_pc_toNat, s.storeAtI_bytesKeptBut bs, s.read_storeAtI_inside bs⟩

/-- A digit, or a byte's hundreds, fits a byte. -/
theorem digitByte_toNat {d : Nat} (h : d < 10) : (BitVec.ofNat 8 d).toNat = d := Nat.mod_eq_of_lt (by omega)

/-! ## The statements -/

/-- Settles O27: the three bytes stored are the decimal digits of `V[X]`. -/
theorem decimalDigitsAreStored : Obligations.DecimalDigitsAreStored := by
  intro x s
  constructor
  · intro hin
    obtain ⟨t, ht, honly, hpc, hkept, hbytes⟩ := stores_of_exec_eq (exec_ldB_of_inMemory (x := x) hin)
    have hv : s.v[x].toNat < 256 := s.v[x].isLt
    refine ⟨t, ht, honly, hpc, hkept, ?_, ?_, ?_⟩
    · exact (congrArg BitVec.toNat (hbytes 0 (by simp [bcdDigits]))).trans (digitByte_toNat (by omega))
    · exact (congrArg BitVec.toNat (hbytes 1 (by simp [bcdDigits]))).trans (digitByte_toNat (by omega))
    · exact (congrArg BitVec.toNat (hbytes 2 (by simp [bcdDigits]))).trans (digitByte_toNat (by omega))
  · intro hpast
    exact faults_of_exec_eq (exec_ldB_of_pastMemory hpast)

/-- Settles O28: the bytes stored are the registers in ascending order. -/
theorem registersAreStoredInOrder : Obligations.RegistersAreStoredInOrder := by
  intro x s
  constructor
  · intro hin
    obtain ⟨t, ht, honly, hpc, hkept, hbytes⟩ := stores_of_exec_eq (exec_stRegs_of_inMemory hin)
    rw [s.length_regsUpTo] at hkept
    refine ⟨t, ht, honly, hpc, hkept, fun j hj => ?_⟩
    exact (hbytes j.val (s.length_regsUpTo x ▸ Nat.lt_succ_of_le hj)).trans (s.getElem_regsUpTo hj)
  · intro hpast
    exact faults_of_exec_eq (exec_stRegs_of_pastMemory hpast)

/-- Settles O29: the register file loaded has the bytes from `I` on up to `X`, and the old registers above. -/
theorem registersAreLoadedInOrder : Obligations.RegistersAreLoadedInOrder := by
  intro x s
  constructor
  · intro hin
    exact ⟨_, exec_ldRegs_of_inMemory hin, rfl, (s.setRegs (s.regsLoaded x)).sequential_pc_toNat,
      getElem_regsLoaded s x⟩
  · intro hpast
    exact faults_of_exec_eq (exec_ldRegs_of_pastMemory hpast)

/-- Settles O30: the fetch reads the two addresses the store wrote. -/
theorem storedCodeIsFetchedNext : Obligations.StoredCodeIsFetchedNext := by
  intro x j s hin hpc hnext hj
  refine ⟨_, exec_stRegs_of_inMemory hin, ?_⟩
  have hpcNext : (s.storeAtI (s.regsUpTo x)).sequential.pc.toNat = s.indexAddr j.val := by
    rw [State.sequential_pc_toNat, State.storeAtI_pc, Nat.mod_eq_of_lt (by omega), hnext]
  have hhi := s.read_storeAtI_regsUpTo (x := x) (k := j.val) (by omega)
  have hlo := s.read_storeAtI_regsUpTo (x := x) (k := j.val + 1) hj
  rw [State.fetchWord_some _ (by rw [hpcNext]; omega), hpcNext]
  exact congrArg some (congrArg₂ wordOfBytes hhi hlo)

/-! ## Canonical memories -/

namespace Memory

/-- The first cells of two canonical memories that read alike are at one address. -/
theorem head_le_head {a b : Nat} {v w : Byte} {m m' : Memory} (h : wf ((a, v) :: m)) (h' : wf ((b, w) :: m'))
    (hread : ∀ c, read ((a, v) :: m) c = read ((b, w) :: m') c) : a ≤ b :=
  head_le_of_differs h (hread b ▸ read_head_differs h')

theorem eq_of_read_eq {m m' : Memory} (h : m.wf) (h' : m'.wf) (hread : ∀ a, m.read a = m'.read a) : m = m' := by
  induction m generalizing m' with
  | nil =>
    cases m' with
    | nil => rfl
    | cons d m' => exact absurd (hread d.1).symm (read_head_differs h')
  | cons c m ih =>
    cases m' with
    | nil => exact absurd (hread c.1) (read_head_differs h)
    | cons d m' =>
      obtain ⟨a, v⟩ := c
      obtain ⟨b, w⟩ := d
      obtain rfl : a = b := Nat.le_antisymm (head_le_head h h' hread)
        (head_le_head h' h fun c => (hread c).symm)
      obtain rfl : v = w := by simpa [read_cons] using hread a
      have htail : m = m' := ih (wf_tail h) (wf_tail h') fun c => by
        rw [read_tail_of_head h, read_tail_of_head h', hread c]
      rw [htail]

end Memory

/-- Settles O56: by induction on the two lists, whose first cells are at the least address that differs from the
reset contents. -/
theorem canonicalMemoryIsDeterminedByItsBytes : Obligations.CanonicalMemoryIsDeterminedByItsBytes :=
  fun _ _ h h' hread => Memory.eq_of_read_eq h h' hread

end Sys2Proof.Machine

/-! SUPPORT. The sprite draw: the rows of the loop cover what the claims say a sprite covers. -/

namespace Sys2Proof.Machine

open Sys2Proof.Safety

section Draw
variable {x y : Reg} {n : Nat} {s : State}

theorem indexBlockInMemory_iff : IndexBlockInMemory s n ↔ n = 0 ∨ s.i.toNat + n - 1 < 4096 := by
  cases n <;> simp [IndexBlockInMemory]

/-- The loop of rule R151 covers the position by position sprite of rule R152. -/
theorem spriteCovers_eq_spritePixel (s : State) (x y : Reg) (n row col : Nat) :
    spriteCovers s.v[x].toNat (s.mem.readBytes (s.indexAddr 0) n) s.v[y].toNat row col =
      spritePixel s x y n row col := by
  simp only [spriteCovers, rowCovers, spritePixel, Memory.length_readBytes]
  by_cases hrow : s.v[y].toNat ≤ row ∧ row < s.v[y].toNat + n
  · have hcols : (s.v[x].toNat ≤ col ∧ col < s.v[x].toNat + 8 ∧ s.v[y].toNat ≤ row ∧ row < s.v[y].toNat + n) ↔
        (s.v[x].toNat ≤ col ∧ col < s.v[x].toNat + 8) := by rw [← and_assoc, and_iff_left hrow]
    rw [Memory.getD_readBytes _ _ _ _ (by omega), decide_eq_true hrow, Bool.true_and]
    simp only [hcols, Nat.add_zero]
  · have hout : ¬ (s.v[x].toNat ≤ col ∧ col < s.v[x].toNat + 8 ∧ s.v[y].toNat ≤ row ∧
        row < s.v[y].toNat + n) := fun h => hrow h.2.2
    rw [decide_eq_false hrow, decide_eq_false hout, Bool.false_and, Bool.false_and]

theorem spriteDrawn_pixel (s : State) (x y : Reg) (n : Nat) (row : Fin 32) (col : Fin 64) :
    (s.spriteDrawn x y n).1.pixel row col = (s.fb.pixel row col != spritePixel s x y n row.val col.val) := by
  rw [State.spriteDrawn, drawSprite_pixel, spriteCovers_eq_spritePixel]

theorem spriteDrawn_collision :
    (s.spriteDrawn x y n).2 = true ↔ ∃ (row : Fin 32) (col : Fin 64),
      s.fb.pixel row col = true ∧ spritePixel s x y n row.val col.val = true := by
  simp only [State.spriteDrawn, drawSprite_collision, spriteCovers_eq_spritePixel, Bool.false_eq_true, false_or]

theorem collisionFlag_eq_one_iff (c : Bool) : collisionFlag c = 1 ↔ c = true := by cases c <;> decide

/-- The sprite depends on memory, `I`, `V[X]` and `V[Y]` alone. -/
theorem spritePixel_congr {u : State} (hi : u.i = s.i) (hmem : u.mem = s.mem) (hx : u.v[x] = s.v[x])
    (hy : u.v[y] = s.v[y]) : spritePixel u x y n = spritePixel s x y n := by
  funext row col
  rw [spritePixel, hi, hmem, hx, hy, spritePixel]

/-- `DXYN` with its sprite in memory: the display flipped where the sprite covers it, and the collision as the
flag (rules R151, R152). -/
theorem exec_drw_draws {n : Fin 16} (hin : IndexBlockInMemory s n.val) :
    ∃ t, exec (.drw x y n) s = .next t ∧ t = { s with pc := t.pc, fb := t.fb, v := t.v } ∧ PcSequential s t ∧
      RegsKeptBut [15] s t ∧
      (∀ (row : Fin 32) (col : Fin 64),
        t.fb.pixel row col = (s.fb.pixel row col != spritePixel s x y n.val row.val col.val)) ∧
      t.v[15] = collisionFlag (s.spriteDrawn x y n.val).2 :=
  ⟨_, exec_drw_of_inMemory (indexBlockInMemory_iff.mp hin), rfl, s.sequential_pc_toNat,
    (s.setFb (s.spriteDrawn x y n.val).1).setReg_regsKeptBut flagReg _, spriteDrawn_pixel s x y n.val,
    (s.setFb (s.spriteDrawn x y n.val).1).v_setReg_same flagReg _⟩

end Draw

/-- Settles O32: the loop flips what the sprite covers, and collides where that was set. -/
theorem drawFlipsTheCoveredPixels : Obligations.DrawFlipsTheCoveredPixels := by
  intro x y n s hin
  obtain ⟨t, ht, honly, hpc, hkept, hpixels, hflag⟩ := exec_drw_draws (x := x) (y := y) hin
  refine ⟨t, ht, honly, hpc, hkept, hpixels, fun hset => ?_, fun hclear => ?_⟩
  · rw [hflag, spriteDrawn_collision.mpr hset]; rfl
  · have hnone : ¬ (s.spriteDrawn x y n.val).2 = true := by
      rw [spriteDrawn_collision]
      rintro ⟨row, col, hset, hcovered⟩
      exact absurd hcovered (by simp [hclear row col hset])
    rw [hflag, Bool.eq_false_of_not_eq_true hnone]; rfl

/-- Settles O34: the second draw flips the same pixels back, and a pixel it finds set where the sprite covers it is
one the first draw set. -/
theorem drawingTwiceRestoresTheDisplay : Obligations.DrawingTwiceRestoresTheDisplay := by
  intro x y n s t u hin ht hfb hi hmem hx hy
  obtain ⟨t', ht', -, -, -, hfirst, -⟩ := exec_drw_draws (x := x) (y := y) hin
  cases ht.symm.trans ht'
  have hinU : IndexBlockInMemory u n.val := by rwa [IndexBlockInMemory, State.indexAddr, hi]
  obtain ⟨r, hr, -, -, -, hsecond, hflag⟩ := exec_drw_draws (x := x) (y := y) hinU
  have hsprite : spritePixel u x y n.val = spritePixel s x y n.val := spritePixel_congr hi hmem hx hy
  refine ⟨r, hr, Framebuffer.ext_pixel fun row col => ?_, hflag ▸ flagByte_zero_or_one _, ?_⟩
  · rw [hsecond, hfb, hfirst, hsprite]
    cases s.fb.pixel row col <;> cases spritePixel s x y n.val row.val col.val <;> rfl
  · rw [hflag, collisionFlag_eq_one_iff, spriteDrawn_collision]
    refine exists_congr fun row => exists_congr fun col => ?_
    rw [hfb, hfirst, hsprite]
    cases s.fb.pixel row col <;> cases spritePixel s x y n.val row.val col.val <;> decide

end Sys2Proof.Machine
